-- ==== Sys2Proof/Word.lean ====
section
/-! DEFINITION. The word types of the NTU (spec/00_scope.md section 6): the 32-bit word of the host port and of the command,
and the number of a wide register. -/

namespace Sys2Proof

/-- A 32-bit unsigned word: a command word, a control register, a limb (00_scope R5, section 6). -/
abbrev Word := BitVec 32

/-- The number of a wide register, `x0` to `x7` (10_state R21, 30_encoding R74). -/
abbrev Reg := Fin 8

end Sys2Proof
end

