-- ==== Sys2Proof/Syntax.lean ====
section
/-! DEFINITION. The five commands (spec/30_encoding.md R72, R79) and the six fields of the one format `C` (R71). -/

namespace Sys2Proof

/-- A command of the NTU, in the order of the opcode map (30_encoding R72). The register selectors are the numbers of wide
registers, all eight legal and free to coincide (R22, R74); `bits` is the 16-bit immediate (R74). -/
inductive Instr where
  /-- `GCD rd, rs1, rs2` (40_gcd R91). -/
  | gcd (rd rs1 rs2 : Reg)
  /-- `MODINV rd, rs1, rs2` (41_modinv R96). -/
  | modinv (rd rs1 rs2 : Reg)
  /-- `POWMOD rd, rs1, rs2, rs3` (42_powmod R106). -/
  | powmod (rd rs1 rs2 rs3 : Reg)
  /-- `ISPRIME rd, rs1` (43_isprime R116). -/
  | isprime (rd rs1 : Reg)
  /-- `GENPRIME rd, bits` (44_genprime R131). -/
  | genprime (rd : Reg) (bits : BitVec 16)
  deriving DecidableEq, Repr

/-- The raw fields of a word in format `C`, before any legality check (30_encoding R71). -/
structure Fields where
  opcode : BitVec 4
  rd     : BitVec 3
  rs1    : BitVec 3
  rs2    : BitVec 3
  rs3    : BitVec 3
  imm16  : BitVec 16
  deriving DecidableEq, Repr

end Sys2Proof
end

