-- ==== Sys2Proof/WellFormed.lean ====
section
/-! DEFINITION. Which fields of format `C` make one of the five commands (spec/30_encoding.md R73, R75), and the table of
(match, mask) pairs the spec gives beside it. An `Instr` needs no check of its own: the types of its operands admit exactly the
values the encoding admits, so what can be ill-formed is a word, that is, a `Fields`. -/

namespace Sys2Proof

/-- The must-be-zero fields of R73, by opcode; opcodes 0 and 6 to 15 belong to no command (30_encoding R72, R75). -/
def Fields.wellFormed (f : Fields) : Bool :=
  match f.opcode.toNat with
  | 1 => f.rs3 == 0 && f.imm16 == 0
  | 2 => f.rs3 == 0 && f.imm16 == 0
  | 3 => f.imm16 == 0
  | 4 => f.rs2 == 0 && f.rs3 == 0 && f.imm16 == 0
  | 5 => f.rs1 == 0 && f.rs2 == 0 && f.rs3 == 0
  | _ => false

/-- One row of the opcode table: a word `w` is the row's command exactly when `w AND mask = pattern` (30_encoding R73). -/
structure OpcodeRow where
  mnemonic : String
  pattern  : Word
  mask     : Word
  deriving DecidableEq, Repr

/-- The spec's five (match, mask) pairs (30_encoding R73, opcode_table.json). The decoder does not read them: that it agrees
with them is a statement. -/
def opcodeTable : List OpcodeRow :=
  [ { mnemonic := "GCD",      pattern := 0x10000000#32, mask := 0xF007FFFF#32 },
    { mnemonic := "MODINV",   pattern := 0x20000000#32, mask := 0xF007FFFF#32 },
    { mnemonic := "POWMOD",   pattern := 0x30000000#32, mask := 0xF000FFFF#32 },
    { mnemonic := "ISPRIME",  pattern := 0x40000000#32, mask := 0xF03FFFFF#32 },
    { mnemonic := "GENPRIME", pattern := 0x50000000#32, mask := 0xF1FF0000#32 } ]

/-- The word belongs to the row (30_encoding R73). -/
def OpcodeRow.admits (r : OpcodeRow) (w : Word) : Bool := w &&& r.mask == r.pattern

end Sys2Proof
end

