-- ==== Sys2Proof/Decode.lean ====
section
/-! DEFINITION. Decoding a command word and encoding a command (spec/30_encoding.md R70 to R79), the two pseudo-instructions
(R78) and the assembler text of a command (R77). -/

namespace Sys2Proof

/-- Why a word is none of the five commands (30_encoding R75). The engine treats all alike: the `ILLEGAL` fault. -/
inductive IllegalWord where
  /-- The opcode is 0 or 6 to 15. -/
  | noCommand (opcode : BitVec 4)
  /-- `rs1` must be zero for this command and is not. -/
  | rs1NotZero
  /-- `rs2` must be zero for this command and is not. -/
  | rs2NotZero
  /-- `rs3` must be zero for this command and is not. -/
  | rs3NotZero
  /-- `imm16` must be zero for this command and is not. -/
  | imm16NotZero
  deriving DecidableEq, Repr

/-- A 3-bit selector field read as an unsigned register number (30_encoding R74). -/
def selector (b : BitVec 3) : Reg := b.toFin

/-- A register number as its 3-bit selector field (30_encoding R74). -/
def selectorBits (r : Reg) : BitVec 3 := BitVec.ofFin r

/-- The six fields of a word: opcode 31:28, rd 27:25, rs1 24:22, rs2 21:19, rs3 18:16, imm16 15:0 (30_encoding R71). -/
def unpack (w : Word) : Fields :=
  { opcode := w.extractLsb' 28 4
    rd     := w.extractLsb' 25 3
    rs1    := w.extractLsb' 22 3
    rs2    := w.extractLsb' 19 3
    rs3    := w.extractLsb' 16 3
    imm16  := w.extractLsb' 0 16 }

/-- The word of six fields, the first in the most significant place (30_encoding R71). -/
def pack (f : Fields) : Word :=
  f.opcode ++ f.rd ++ f.rs1 ++ f.rs2 ++ f.rs3 ++ f.imm16

/-- The command the fields stand for, or the reason they stand for none (30_encoding R73, R75). -/
def decodeFields (f : Fields) : Except IllegalWord Instr :=
  match f.opcode.toNat with
  | 1 =>
    if f.rs3 ≠ 0 then .error .rs3NotZero
    else if f.imm16 ≠ 0 then .error .imm16NotZero
    else .ok (.gcd (selector f.rd) (selector f.rs1) (selector f.rs2))
  | 2 =>
    if f.rs3 ≠ 0 then .error .rs3NotZero
    else if f.imm16 ≠ 0 then .error .imm16NotZero
    else .ok (.modinv (selector f.rd) (selector f.rs1) (selector f.rs2))
  | 3 =>
    if f.imm16 ≠ 0 then .error .imm16NotZero
    else .ok (.powmod (selector f.rd) (selector f.rs1) (selector f.rs2) (selector f.rs3))
  | 4 =>
    if f.rs2 ≠ 0 then .error .rs2NotZero
    else if f.rs3 ≠ 0 then .error .rs3NotZero
    else if f.imm16 ≠ 0 then .error .imm16NotZero
    else .ok (.isprime (selector f.rd) (selector f.rs1))
  | 5 =>
    if f.rs1 ≠ 0 then .error .rs1NotZero
    else if f.rs2 ≠ 0 then .error .rs2NotZero
    else if f.rs3 ≠ 0 then .error .rs3NotZero
    else .ok (.genprime (selector f.rd) f.imm16)
  | _ => .error (.noCommand f.opcode)

/-- Decoding is a total function of the 32-bit word and depends on nothing else (30_encoding R79). -/
def decode (w : Word) : Except IllegalWord Instr := decodeFields (unpack w)

/-- The fields of a command, zero in those it does not use (30_encoding R73, R79). -/
def fieldsOf : Instr → Fields
  | .gcd rd rs1 rs2 =>
    { opcode := 1, rd := selectorBits rd, rs1 := selectorBits rs1, rs2 := selectorBits rs2, rs3 := 0, imm16 := 0 }
  | .modinv rd rs1 rs2 =>
    { opcode := 2, rd := selectorBits rd, rs1 := selectorBits rs1, rs2 := selectorBits rs2, rs3 := 0, imm16 := 0 }
  | .powmod rd rs1 rs2 rs3 =>
    { opcode := 3, rd := selectorBits rd, rs1 := selectorBits rs1, rs2 := selectorBits rs2, rs3 := selectorBits rs3, imm16 := 0 }
  | .isprime rd rs1 =>
    { opcode := 4, rd := selectorBits rd, rs1 := selectorBits rs1, rs2 := 0, rs3 := 0, imm16 := 0 }
  | .genprime rd bits =>
    { opcode := 5, rd := selectorBits rd, rs1 := 0, rs2 := 0, rs3 := 0, imm16 := bits }

/-- The one word of a command (30_encoding R70, R79). -/
def encode (i : Instr) : Word := pack (fieldsOf i)

/-- The instruction the decoder reads from `w`, its bits numbered as the opcode table numbers them. A command is one 32-bit
word, so the table's bits are the word's own; bits at or above `nbits` are zero, and more than 32 bits are no command
(30_encoding R70). -/
def decodeTableWord (nbits w : Nat) : Option Instr :=
  if 32 < nbits then none
  else
    match decode (BitVec.ofNat 32 (w % 2 ^ nbits)) with
    | .ok i => some i
    | .error _ => none

/-- Pseudo-instruction `encblk xd, xm, xn`: one `POWMOD` with exponent and modulus `xn` (30_encoding R78). -/
def encblk (xd xm xn : Reg) : Instr := .powmod xd xm xn xn

/-- Pseudo-instruction `decblk xd, xc, xe, xp`: one `POWMOD` (30_encoding R78). -/
def decblk (xd xc xe xp : Reg) : Instr := .powmod xd xc xe xp

/-- The assembler's name of a wide register (30_encoding R77). -/
def regName (r : Reg) : String := "x" ++ toString r.val

/-- The assembler text of a command, without its padding: lower case, destination first (30_encoding R77). -/
def asmText : Instr → String
  | .gcd rd rs1 rs2 => "gcd " ++ regName rd ++ ", " ++ regName rs1 ++ ", " ++ regName rs2
  | .modinv rd rs1 rs2 => "modinv " ++ regName rd ++ ", " ++ regName rs1 ++ ", " ++ regName rs2
  | .powmod rd rs1 rs2 rs3 =>
    "powmod " ++ regName rd ++ ", " ++ regName rs1 ++ ", " ++ regName rs2 ++ ", " ++ regName rs3
  | .isprime rd rs1 => "isprime " ++ regName rd ++ ", " ++ regName rs1
  | .genprime rd bits => "genprime " ++ regName rd ++ ", " ++ toString bits.toNat

end Sys2Proof
end

