-- ==== Sys2Proof/Config.lean ====
section
/-! DEFINITION. What an implementation fixes (spec/00_scope.md R5, 92_eei_decisions.md open parameters), what the agents can do
in one turn (R6), and the free values: constants with no body, so that no proof can read a value out of them. -/

namespace Sys2Proof

/-- The two open parameters of an NTU (00_scope R5). Each is stored as its distance from its least value, so every value of
the structure is a legal parameter pair and every legal pair is a value of it. -/
structure Params where
  /-- NL - 2, with NL = OPW / 32 between 2 and 1024 (10_state R29). -/
  limbsAboveTwo : Fin 1023
  /-- `MR_TRIAL_OFFSET`, 0 or 1 (43_isprime R118). -/
  trialOffset   : Fin 2
  deriving DecidableEq, Repr

/-- A request at the random-source port (10_state R37, R38). -/
inductive Request where
  /-- `RandBits(len)`: a pattern of `len` bits. -/
  | bits (len : Nat)
  /-- `RandBelow(bound)`: a natural below `bound`. -/
  | below (bound : Nat)
  deriving DecidableEq, Repr

/-- One draw: a request and its answer, a triple of the draw transcript (10_state R42). -/
structure Draw where
  request : Request
  answer  : Nat
  deriving DecidableEq, Repr

namespace Machine

/-- What the host can do at the port (20_memory R50, R52): one aligned 32-bit access by word index (byte offset / 4), or
reset. -/
inductive HostAction where
  | read (index : Nat)
  | write (index : Nat) (v : Word)
  | reset
  deriving DecidableEq, Repr, Inhabited

/-- What happens at the random source beside the NTU's own draws (10_state R39, R41, 70_reset_and_hazards R187, R195). -/
inductive SourceAction where
  /-- The platform initialises and seeds it, or seeds it anew; `rng_ready` is 1 from then on. -/
  | init (seed : BitVec 64)
  /-- The platform tears it down; `rng_ready` is 0 from then on. -/
  | teardown
  /-- Other software (or another NTU, 60_exceptions R171) that shares the source makes a draw. -/
  | draw (q : Request)
  deriving DecidableEq, Repr

/-- One turn of one agent (00_scope R6): the interleaving of a run is a sequence of turns (assumption log 4). -/
inductive Turn where
  /-- The host acts at the port. -/
  | host (a : HostAction)
  /-- The engine runs, making at most `draws` draws. -/
  | engine (draws : Nat)
  /-- Something happens at the random source. -/
  | source (a : SourceAction)
  deriving DecidableEq, Repr, Inhabited

end Machine

namespace Config

/-- FREE VALUE. The OPW of the implementation, as NL - 2 (00_scope R5; assumption log 1). -/
opaque limbsAboveTwo : Fin 1023

/-- FREE VALUE. `MR_TRIAL_OFFSET` of the implementation (43_isprime R118; assumption log 1). -/
opaque trialOffset : Fin 2

/-- FREE VALUE. What the random source, initialised with a seed, answers to the newest of the requests made since then (newest
first), when no answer is lined up in the state (10_state R40, R41; assumption logs 2 and 3). Any natural: the draw operation
brings it into range. -/
opaque freeDraw : BitVec 64 → List Request → Nat

/-- FREE VALUE. Turn number `n` of an endless run, past the turns listed in the state (00_scope R10; assumption log 18). -/
opaque freeTurn : Nat → Machine.Turn

end Config

end Sys2Proof
end

