-- ==== Sys2Proof/Machine/State.lean ====
section
/-! DEFINITION. The machine's state as plain data (spec/10_state.md R20, R43), the reasons a step can stop, and the state right
after reset. What stands in it beyond R20 is the model's own bookkeeping: the parameters, the engine's temporaries, the random
source and the schedule of turns (assumption logs 1 to 9 and 18). -/

namespace Sys2Proof.Machine

/-- A fault of a command: a completion step that records a code in `STATUS.ERR` and writes no register (60_exceptions R160,
R163). It is a next state of the machine, not a stop. -/
inductive FaultCode where
  /-- The command word is not one of the five commands. -/
  | illegal
  /-- The modulus operand is zero. -/
  | divzero
  /-- `bits` of `GENPRIME` is 0 or its result would not fit. -/
  | range
  /-- The random source was not ready when the command started. -/
  | rngnrdy
  deriving DecidableEq, Repr

/-- Why the machine has no next state. -/
inductive Fault where
  /-- Raised by `execIsprime` and `execGenprime`: the running command needs a draw and the source was torn down or
  reseeded after the command had begun. The request has no answer, so the engine has no step (93_implementation_defined U6: "Model as `stuck`").
  SAFE: nothing is claimed of what follows. The host still has its turns, a reset among them. -/
  | drawUnanswered
  deriving DecidableEq, Repr

/-- What the machine gives no meaning to. -/
inductive Refusal where
  /-- Raised by no arm of `exec` as it stands: every command has its meaning. SAFE. -/
  | notModelled (mnemonic : String)
  /-- Raised by `hostTurn`: a host access by a word index at or beyond the window's end, to which the NTU does not respond
  and whose effect is the platform's (20_memory R66, 93_implementation_defined U15). SAFE: nothing is claimed of it. -/
  | outsideWindow (index : Nat)
  deriving DecidableEq, Repr

/-- A Miller-Rabin test under way (43_isprime R117): the number tested and the trials still to run. -/
structure Trials where
  n    : Nat
  left : Nat
  deriving DecidableEq, Repr

/-- The engine's temporaries, which live between the accept and the completion step (10_state R30, R32; assumption log 5). -/
inductive Phase where
  /-- The command has not begun (no fault checked, `rng_ready` not sampled), or none is running: no temporaries. -/
  | fresh
  /-- The command has begun (`rng_ready` was sampled as 1) and needs a further draw; the test under way, if any. Only
  `ISPRIME` and `GENPRIME` get here. -/
  | begun (test : Option Trials)
  /-- The source was torn down or reseeded after the command had begun: the engine has no step until a reset (93 U6, log 6). -/
  | stranded
  deriving DecidableEq, Repr

/-- The random source as the NTU sees it through its port (10_state R36 to R42). It is outside the NTU. -/
structure Source where
  /-- The level `rng_ready` (R39). -/
  ready   : Bool
  /-- The seed of the last initialisation (R41). -/
  seed    : BitVec 64
  /-- Answers lined up for the next draws, oldest first (R40): free inputs. Past the end of the list a draw is answered by
  `Config.freeDraw`. -/
  answers : List Nat
  /-- Every draw since the last initialisation, newest first, whoever made it (R41, R42, 70_reset_and_hazards R195). -/
  log     : List Draw
  deriving DecidableEq, Repr

/-- The state. `x` to `cmd` are the complete architectural state of 10_state R20. -/
structure State where
  /-- Wide registers `x0` to `x7`, naturals below `2^OPW` (R21). -/
  x        : Vector Nat 8
  /-- `ITER` (R28). -/
  iter     : Word
  /-- `STATUS.BUSY` (R27). -/
  busy     : Bool
  /-- `STATUS.DONE` (R27). -/
  done     : Bool
  /-- `STATUS.NOINV` (R25). -/
  noinv    : Bool
  /-- `STATUS.WRERR` (R27, R174). -/
  wrerr    : Bool
  /-- `STATUS.ERR` (R27, R160). -/
  err      : BitVec 4
  /-- The latched command word (R30). -/
  cmd      : Word
  /-- OPW and MR_TRIAL_OFFSET of this NTU: changed by no step (00_scope R5, R6). -/
  params   : Params
  /-- The engine's temporaries (R30). -/
  phase    : Phase
  /-- The random source (R36). -/
  source   : Source
  /-- The turns still to come. -/
  schedule : List Turn
  /-- The number of the next turn past the list, in a run that goes on for ever; `none` in a run that ends with the list
  (00_scope R10). -/
  endless  : Option Nat
  /-- How many draws the engine may make in one turn. -/
  pace     : Nat
  /-- What `HostRead` has returned, newest first. -/
  reads    : List Word
  /-- The faults that completion steps have recorded, newest first (60_exceptions R164). -/
  faults   : List FaultCode
  deriving DecidableEq, Repr

/-- Right after reset (10_state R43): all architectural state 0. The parameters are the implementation's (log 1); the source
is not yet initialised and no answer is lined up (logs 2, 3, 7); no turn is planned (logs 4, 18). -/
def State.reset : State :=
  { x        := Vector.replicate 8 0
    iter     := 0
    busy     := false
    done     := false
    noinv    := false
    wrerr    := false
    err      := 0
    cmd      := 0
    params   := { limbsAboveTwo := Config.limbsAboveTwo, trialOffset := Config.trialOffset }
    phase    := .fresh
    source   := { ready := false, seed := 0, answers := [], log := [] }
    schedule := []
    endless  := none
    pace     := 1
    reads    := []
    faults   := [] }

end Sys2Proof.Machine
end

