-- ==== Sys2Proof/Machine/Ops.lean ====
section
/-! DEFINITION. The named operations over the state: wide registers, the accept step, the completion step with and without a
fault, reset, and one draw from the random source (spec/10_state.md R31, R33, R37 to R42, 60_exceptions.md R163,
70_reset_and_hazards.md R185). -/

namespace Sys2Proof

/-- NL, the limbs of a wide register (00_scope R5). -/
def Params.limbs (p : Params) : Nat := p.limbsAboveTwo.val + 2

/-- OPW, the width of a wide register in bits (00_scope R5). -/
def Params.opw (p : Params) : Nat := 32 * p.limbs

/-- Every answer to the request is below this, and every natural below it can be the answer (10_state R37, R38). -/
def Request.bound : Request → Nat
  | .bits len => 2 ^ len
  | .below bound => bound

end Sys2Proof

namespace Sys2Proof.Machine

/-- The number of bits of a natural: 0 for 0, else the `k` with `2^(k-1) ≤ v < 2^k` (00_scope section 6). -/
def bitlen (v : Nat) : Nat := if v = 0 then 0 else Nat.log2 v + 1

/-- Read wide register `i` (10_state R21). -/
def State.getX (s : State) (i : Reg) : Nat := s.x.get i

/-- Write wide register `i`; every register is an ordinary one (10_state R21). -/
def State.setX (s : State) (i : Reg) (v : Nat) : State := { s with x := s.x.set i.val v i.isLt }

/-- The code of a fault in `STATUS.ERR` (60_exceptions R160). -/
def FaultCode.code : FaultCode → BitVec 4
  | .illegal => 1
  | .divzero => 2
  | .range => 3
  | .rngnrdy => 4

/-- The accept step: a command word is latched, the unit is busy (10_state R31). -/
def State.accept (s : State) (w : Word) : State :=
  { s with cmd := w, busy := true, done := false, err := 0, phase := .fresh }

/-- The completion step without a fault: the result and the status in one step; the engine's temporaries are gone
(10_state R30, R33). -/
def State.complete (s : State) (rd : Reg) (v : Nat) : State :=
  { s.setX rd v with busy := false, done := true, err := 0, phase := .fresh }

/-- The completion step of a `MODINV`: the flag `NOINV` with the result (10_state R25, R33). -/
def State.completeFlag (s : State) (rd : Reg) (v : Nat) (noinv : Bool) : State :=
  { s.complete rd v with noinv := noinv }

/-- Fault entry, the one way a command takes a fault: `ERR`, `BUSY` and `DONE` and nothing else (60_exceptions R163). The
model records the fault beside it (R164). -/
def State.raise (s : State) (f : FaultCode) : State :=
  { s with busy := false, done := true, err := f.code, phase := .fresh, faults := f :: s.faults }

/-- The host's reset: every piece of NTU state at its reset value; the random source and what lies outside the NTU stay as
they are (10_state R43, 70_reset_and_hazards R185, R186). -/
def State.hostReset (s : State) : State :=
  { State.reset with
    params := s.params, source := s.source, schedule := s.schedule, endless := s.endless, pace := s.pace, reads := s.reads,
    faults := s.faults }

/-- One draw: the next lined-up answer, or a free value, brought into the request's range; the draw enters the history
(10_state R37, R38, R40, R41, R42; assumption log 2). -/
def Source.draw (src : Source) (q : Request) : Nat × Source :=
  let raw :=
    match src.answers with
    | [] => Config.freeDraw src.seed (q :: src.log.map Draw.request)
    | a :: _ => a
  let v := raw % q.bound
  (v, { src with answers := src.answers.tail, log := { request := q, answer := v } :: src.log })

/-- What happens at the source beside the NTU's own draws. An initialisation starts the history of requests anew (10_state R41);
a draw by other software advances the source like any other (70_reset_and_hazards R195), and one made of a source that is not
ready has no answer (assumption log 19). -/
def Source.act (src : Source) : SourceAction → Source
  | .init seed => { src with ready := true, seed := seed, log := [] }
  | .teardown => { src with ready := false }
  | .draw q => if src.ready then (src.draw q).2 else src

end Sys2Proof.Machine
end

