-- ==== Sys2Proof/Machine/Gcd.lean ====
section
/-! DEFINITION. GCD, the greatest common divisor by Euclid's loop (spec/40_gcd.md). -/

namespace Sys2Proof.Machine

/-- The loop of 40_gcd R91, at most `fuel` passes: `b` strictly decreases, so `b + 1` passes are enough. -/
def euclid : Nat → Nat → Nat → Nat
  | 0, a, _ => a
  | fuel + 1, a, b => if b = 0 then a else euclid fuel b (a % b)

/-- The result of `GCD` (40_gcd R91). -/
def gcdResult (a b : Nat) : Nat := euclid (b + 1) a b

/-- `GCD rd, rs1, rs2` (40_gcd R91): both sources are read before `x[rd]` is written; no fault, no draw, no flag. -/
def execGcd (rd rs1 rs2 : Reg) (s : State) : Host.Outcome State Fault Refusal :=
  .next (s.complete rd (gcdResult (s.getX rs1) (s.getX rs2)))

end Sys2Proof.Machine
end

