-- ==== Sys2Proof/Machine/PowMod.lean ====
section
/-! DEFINITION. POWMOD, modular exponentiation by right-to-left square-and-multiply (spec/42_powmod.md). Only the value is
architectural (R108); the loop is the source's method (R107). -/

namespace Sys2Proof.Machine

/-- The loop of 42_powmod R107, at most `fuel` passes: `bitlen` of the exponent are enough. -/
def powLoop (m : Nat) : Nat → Nat → Nat → Nat → Nat
  | 0, result, _, _ => result
  | fuel + 1, result, b, e =>
    if e = 0 then result
    else powLoop m fuel (if e % 2 = 1 then result * b % m else result) (b * b % m) (e / 2)

/-- `(base ^ exponent) mod modulus` for a modulus `m ≥ 1` (42_powmod R106, R107). -/
def powmodResult (base exponent m : Nat) : Nat := powLoop m (bitlen exponent) (1 % m) (base % m) exponent

/-- `POWMOD rd, rs1, rs2, rs3` (42_powmod R106): a zero modulus is the `DIVZERO` fault. -/
def execPowmod (rd rs1 rs2 rs3 : Reg) (s : State) : Host.Outcome State Fault Refusal :=
  let m := s.getX rs3
  if m = 0 then .next (s.raise .divzero)
  else .next (s.complete rd (powmodResult (s.getX rs1) (s.getX rs2) m))

end Sys2Proof.Machine
end

