-- ==== Sys2Proof/Machine/MillerRabin.lean ====
section
/-! DEFINITION. The Miller-Rabin test shared by ISPRIME and GENPRIME, cut into its draws (spec/43_isprime.md R117 to R122), and
how a command that draws is carried on over the engine's turns (spec/10_state.md R32, R39, R42). -/

namespace Sys2Proof.Machine

/-- `(s, r)` with `m = 2^s r` and `r` odd, for `m > 0`, by halving at most `fuel` times. -/
def splitTwos : Nat → Nat → Nat × Nat
  | 0, m => (0, m)
  | fuel + 1, m => if m % 2 = 0 then ((splitTwos fuel (m / 2)).1 + 1, (splitTwos fuel (m / 2)).2) else (0, m)

/-- The decomposition `n - 1 = 2^s r` with `r` odd (43_isprime R121). -/
def decomposition (n : Nat) : Nat × Nat := splitTwos (bitlen (n - 1)) (n - 1)

/-- Up to `k` squarings of `y`, looking for `n - 1`: reaching 1 or running out is a failure (43_isprime R120). -/
def squarings (n : Nat) : Nat → Nat → Bool
  | 0, _ => false
  | k + 1, y =>
    if y * y % n = n - 1 then true
    else if y * y % n = 1 then false
    else squarings n k (y * y % n)

/-- `TrialPasses(n, s, r, a)` (43_isprime R120). -/
def trialPasses (n s r a : Nat) : Bool :=
  let y := powmodResult a r n
  if y = 1 ∨ y = n - 1 then true else squarings n (s - 1) y

/-- How a test stands between two draws (43_isprime R117). -/
inductive Verdict where
  /-- The number is reported probably prime. -/
  | passed
  /-- The number is reported composite, or below 2. -/
  | failed
  /-- At least one trial is still to run. -/
  | more (t : Trials)
  deriving DecidableEq, Repr

/-- The three fast paths, in their order, and the count of trials (43_isprime R117, R118); no draw is made. -/
def beginTest (n T : Nat) : Verdict :=
  if n < 2 then .failed
  else if n % 2 = 0 ∧ n ≠ 2 then .failed
  else if n = 2 ∨ n = 3 then .passed
  else if T = 0 then .passed
  else .more { n := n, left := T }

/-- One trial: one draw, the witness `a = 2 + RandBelow(n - 3)`, and the test (43_isprime R119, R120, R122). -/
def runTrial (t : Trials) (src : Source) : Verdict × Source :=
  let (v, src') := src.draw (.below (t.n - 3))
  let (s, r) := decomposition t.n
  if trialPasses t.n s r (2 + v) then
    (if t.left ≤ 1 then .passed else .more { n := t.n, left := t.left - 1 }, src')
  else (.failed, src')

/-- How a command that draws stands: still running, with the test under way if any, or finished with its result. -/
inductive Progress where
  | running (test : Option Trials)
  | finished (v : Nat)
  deriving DecidableEq, Repr

/-- Carry a command on for at most `k` draws; `next` makes the command's next draw (10_state R32, R42). -/
def drive (next : Option Trials → Source → Progress × Source) : Nat → Progress → Source → Progress × Source
  | 0, p, src => (p, src)
  | _ + 1, .finished v, src => (.finished v, src)
  | k + 1, .running t, src => drive next k (next t src).1 (next t src).2

/-- One engine turn of a command that has begun and stands at `p`: it completes with its result in `x[rd]`, or stays busy with
its temporaries kept (10_state R32, R33; assumption log 5). Without a ready source it has no step: a draw request has no answer
(93_implementation_defined U6). -/
def pursue (next : Option Trials → Source → Progress × Source) (p : Progress) (rd : Reg) (s : State) :
    Host.Outcome State Fault Refusal :=
  if s.source.ready = false then .fault .drawUnanswered
  else
    match drive next s.pace p s.source with
    | (.finished v, src) => .next ({ s with source := src }.complete rd v)
    | (.running t, src) => .next { s with source := src, phase := .begun t }

end Sys2Proof.Machine
end

