-- ==== Sys2Proof/Machine/Operands.lean ====
section
/-! DEFINITION. The operand forms of the commands besides the wide registers (spec/30_encoding.md R74) and the limbs through
which the host sees a wide register (spec/20_memory.md R53, R54, R56). -/

namespace Sys2Proof.Machine

/-- The immediate of `GENPRIME`, zero-extended (30_encoding R74). -/
def bitsOperand (imm16 : BitVec 16) : Nat := imm16.toNat

/-- The trial count `T = max(ITER - MR_TRIAL_OFFSET, 0)` (43_isprime R118); subtraction of naturals stops at 0. -/
def State.trialCount (s : State) : Nat := s.iter.toNat - s.params.trialOffset.val

/-- Limb `j` of a value: `(v div 2^(32 j)) mod 2^32` (20_memory R53, R56). -/
def limbOf (v j : Nat) : Word := BitVec.ofNat 32 (v / 2 ^ (32 * j))

/-- The value with limb `j` replaced and the others kept (20_memory R54). -/
def withLimb (v j : Nat) (w : Word) : Nat := v - (limbOf v j).toNat * 2 ^ (32 * j) + w.toNat * 2 ^ (32 * j)

end Sys2Proof.Machine
end

