-- ==== Sys2Proof/Machine/GenPrime.lean ====
section
/-! DEFINITION. GENPRIME, the prime generator by rejection sampling (spec/44_genprime.md R131). -/

namespace Sys2Proof.Machine

/-- What `GENPRIME` makes of the verdict on candidate `c`: accepted, or discarded for a fresh candidate, or it goes on
(44_genprime R131). -/
def genprimeProgress (c : Nat) : Verdict → Progress
  | .passed => .finished c
  | .failed => .running none
  | .more t => .running (some t)

/-- The next draw of `GENPRIME`: a candidate, redrawn while even, with `2^bits` added (44_genprime R131), or the next witness
for the candidate under test. -/
def genprimeDraw (bits T : Nat) : Option Trials → Source → Progress × Source
  | none, src =>
    let (v, src') := src.draw (.bits bits)
    if v % 2 = 1 then (genprimeProgress (v + 2 ^ bits) (beginTest (v + 2 ^ bits) T), src')
    else (.running none, src')
  | some t, src => (genprimeProgress t.n (runTrial t src).1, (runTrial t src).2)

/-- `GENPRIME rd, bits` (44_genprime R131): when it begins, `RANGE` first, then `RNGNRDY` (60_exceptions R162); then
candidates until one is accepted, with no bound on their number (R133). -/
def execGenprime (rd : Reg) (imm16 : BitVec 16) (s : State) : Host.Outcome State Fault Refusal :=
  let bits := bitsOperand imm16
  let T := s.trialCount
  match s.phase with
  | .fresh =>
    if bits = 0 ∨ s.params.opw < bits + 1 then .next (s.raise .range)
    else if s.source.ready = false then .next (s.raise .rngnrdy)
    else pursue (genprimeDraw bits T) (.running none) rd s
  | .begun t => pursue (genprimeDraw bits T) (.running t) rd s
  | .stranded => .fault .drawUnanswered

end Sys2Proof.Machine
end

