-- ==== Sys2Proof/Machine/IsPrime.lean ====
section
/-! DEFINITION. ISPRIME, the Miller-Rabin primality test as a command (spec/43_isprime.md R116). -/

namespace Sys2Proof.Machine

/-- What `ISPRIME` makes of a verdict: the natural 1 or 0, or it goes on (43_isprime R116). -/
def isprimeProgress : Verdict → Progress
  | .passed => .finished 1
  | .failed => .finished 0
  | .more t => .running (some t)

/-- The next draw of `ISPRIME` on `n` with `T` trials: one trial. With no test under way it begins the test, without a draw. -/
def isprimeDraw (n T : Nat) : Option Trials → Source → Progress × Source
  | none, src => (isprimeProgress (beginTest n T), src)
  | some t, src => (isprimeProgress (runTrial t src).1, (runTrial t src).2)

/-- `ISPRIME rd, rs1` (43_isprime R116): `rng_ready` is sampled once, when the command begins (10_state R39), and an unready
source is the `RNGNRDY` fault whatever the operand; then `IsProbablePrime(x[rs1], ITER)`. -/
def execIsprime (rd rs1 : Reg) (s : State) : Host.Outcome State Fault Refusal :=
  let n := s.getX rs1
  let T := s.trialCount
  match s.phase with
  | .fresh =>
    if s.source.ready = false then .next (s.raise .rngnrdy)
    else pursue (isprimeDraw n T) (isprimeProgress (beginTest n T)) rd s
  | .begun t => pursue (isprimeDraw n T) (.running t) rd s
  | .stranded => .fault .drawUnanswered

end Sys2Proof.Machine
end

