-- ==== Sys2Proof/Machine/ModInv.lean ====
section
/-! DEFINITION. MODINV, the modular inverse by the extended Euclidean loop (spec/41_modinv.md). -/

namespace Sys2Proof.Machine

/-- The loop of 41_modinv R98, at most `fuel` passes: `r1` strictly decreases. It answers the last `r0` and `t0`. The
coefficients are the only signed values of the unit. -/
def extEuclid : Nat → Nat → Nat → Int → Int → Nat × Int
  | 0, r0, _, t0, _ => (r0, t0)
  | fuel + 1, r0, r1, t0, t1 =>
    if r1 = 0 then (r0, t0)
    else
      let q := r0 / r1
      extEuclid fuel r1 (r0 - q * r1) t1 (t0 - (q : Int) * t1)

/-- The result and the flag of `MODINV` for a modulus `n ≥ 1`: the inverse of `a` modulo `n` and no flag, or the sentinel 0
and `NOINV` when the two have a common divisor above 1 (41_modinv R96, R98). -/
def modinvResult (a n : Nat) : Nat × Bool :=
  let (g, t) := extEuclid (a + 1) n a 0 1
  if 1 < g then (0, true) else ((t % (n : Int)).toNat, false)

/-- `MODINV rd, rs1, rs2` (41_modinv R96): a zero modulus is the `DIVZERO` fault; "no inverse" completes normally. -/
def execModinv (rd rs1 rs2 : Reg) (s : State) : Host.Outcome State Fault Refusal :=
  let a := s.getX rs1
  let n := s.getX rs2
  if n = 0 then .next (s.raise .divzero)
  else .next (s.completeFlag rd (modinvResult a n).1 (modinvResult a n).2)

end Sys2Proof.Machine
end

