-- ==== Sys2Proof/Machine/Dispatch.lean ====
section
/-! DEFINITION. One arm per command, each a direct call of its meaning (spec/30_encoding.md R72). -/

namespace Sys2Proof.Machine

/-- One engine turn of the command `i` (10_state R32). -/
def exec (i : Instr) (s : State) : Host.Outcome State Fault Refusal :=
  match i with
  | .gcd rd rs1 rs2 => Sys2Proof.Machine.execGcd rd rs1 rs2 s
  | .modinv rd rs1 rs2 => Sys2Proof.Machine.execModinv rd rs1 rs2 s
  | .powmod rd rs1 rs2 rs3 => Sys2Proof.Machine.execPowmod rd rs1 rs2 rs3 s
  | .isprime rd rs1 => Sys2Proof.Machine.execIsprime rd rs1 s
  | .genprime rd bits => Sys2Proof.Machine.execGenprime rd bits s

end Sys2Proof.Machine
end

