-- ==== Sys2Proof/Machine/Engine.lean ====
section
/-! DEFINITION. One turn of the engine: decode the latched word and execute it (spec/10_state.md R32, 30_encoding.md R79). -/

namespace Sys2Proof.Machine

/-- While busy the engine executes `cmd`: an illegal word ends at once with the `ILLEGAL` fault (30_encoding R75). While idle
nothing executes and all state is kept (10_state R30, 60_exceptions R173). -/
def engineTurn (s : State) : Host.Outcome State Fault Refusal :=
  if s.busy then
    match decode s.cmd with
    | .ok i => exec i s
    | .error _ => .next (s.raise .illegal)
  else .next s

/-- The engine's turn when no turn is left: a running command goes on, by at least one draw, since the engine still owes its
completion step (00_scope R10; assumption log 11); an idle NTU keeps all state (60_exceptions R173). -/
def owedTurn (s : State) : Host.Outcome State Fault Refusal :=
  if s.busy then engineTurn { s with pace := max s.pace 1 } else .next s

end Sys2Proof.Machine
end

