-- ==== Sys2Proof/Machine/Flags.lean ====
section
/-! DEFINITION. The control words the host reads and how it clears the one flag it can clear (spec/10_state.md R25, R27, R29). -/

namespace Sys2Proof.Machine

/-- One bit as a 1-bit field. -/
def flagBit (b : Bool) : BitVec 1 := BitVec.ofBool b

/-- The `STATUS` word: BUSY 0, DONE 1, NOINV 2, WRERR 3, ERR 7:4, and 31:8 read as 0 (10_state R27). -/
def State.statusWord (s : State) : Word :=
  0#24 ++ s.err ++ flagBit s.wrerr ++ flagBit s.noinv ++ flagBit s.done ++ flagBit s.busy

/-- The `PARAM` word: VERSION 1 in 7:0, NREG 8 in 11:8, MRO in 12, 15:13 zero, NL in 31:16 (10_state R29). -/
def Params.word (p : Params) : Word :=
  BitVec.ofNat 16 p.limbs ++ 0#3 ++ BitVec.ofNat 1 p.trialOffset.val ++ 8#4 ++ 1#8

/-- A host write to `STATUS`: bit 3 clears `WRERR`, every other bit is ignored (10_state R27, 20_memory R54). -/
def State.writeStatus (s : State) (v : Word) : State :=
  if v.getLsbD 3 then { s with wrerr := false } else s

/-- A host write dropped because the unit is busy (20_memory R55, 60_exceptions R174). -/
def State.dropWrite (s : State) : State := { s with wrerr := true }

end Sys2Proof.Machine
end

