-- ==== Sys2Proof/Machine/HostPort.lean ====
section
/-! DEFINITION. The register window and what the host does to it (spec/20_memory.md R51 to R57, R66), and the directives by
which a host loads a register (spec/30_encoding.md R77). -/

namespace Sys2Proof.Machine

/-- What stands at a word of the window (20_memory R51). -/
inductive Location where
  | cmd
  | status
  | iter
  | param
  | reserved
  | limb (i : Reg) (j : Nat)
  deriving DecidableEq, Repr

/-- The window has 0x9000 bytes (20_memory R51). -/
def windowWords : Nat := 0x9000 / 4

/-- The address map, by word index (byte offset / 4); nothing at or beyond the window's end (20_memory R51, R52, R66). -/
def locate (index : Nat) : Option Location :=
  if index = 0x0000 / 4 then some .cmd
  else if index = 0x0004 / 4 then some .status
  else if index = 0x0008 / 4 then some .iter
  else if index = 0x000C / 4 then some .param
  else if index < 0x1000 / 4 then some .reserved
  else if index < windowWords then some (.limb (Fin.ofNat 8 (index / 1024 - 1)) (index % 1024))
  else none

/-- The word index of limb `j` of `x[i]` (20_memory R51). -/
def limbIndex (i : Reg) (j : Nat) : Nat := (0x1000 * (i.val + 1) + 4 * j) / 4

/-- The word a host read returns; a limb at or above NL reads 0 (20_memory R53, R57). -/
def State.readAt (s : State) : Location → Word
  | .cmd => 0
  | .status => s.statusWord
  | .iter => s.iter
  | .param => Params.word s.params
  | .reserved => 0
  | .limb i j => if j < s.params.limbs then limbOf (s.getX i) j else 0

/-- A host write while the unit is idle (20_memory R54). -/
def State.writeIdle (s : State) (v : Word) : Location → State
  | .cmd => s.accept v
  | .status => s.writeStatus v
  | .iter => { s with iter := v }
  | .param => s
  | .reserved => s
  | .limb i j => if j < s.params.limbs then s.setX i (withLimb (s.getX i) j v) else s

/-- A host write: while busy, all but a write to `STATUS` is dropped (20_memory R54, R55). -/
def State.writeAt (s : State) (v : Word) (l : Location) : State :=
  if s.busy then
    match l with
    | .status => s.writeStatus v
    | _ => s.dropWrite
  else s.writeIdle v l

/-- One action of the host, an atomic step (20_memory R50). -/
def hostTurn (a : HostAction) (s : State) : Host.Outcome State Fault Refusal :=
  match a with
  | .reset => .next s.hostReset
  | .read index =>
    match locate index with
    | some l => .next { s with reads := s.readAt l :: s.reads }
    | none => .refused (.outsideWindow index)
  | .write index v =>
    match locate index with
    | some l => .next (s.writeAt v l)
    | none => .refused (.outsideWindow index)

/-- The source is not the one the command began with: it has been torn down or reseeded (93_implementation_defined U6). -/
def SourceAction.breaks : SourceAction → Bool
  | .init _ => true
  | .teardown => true
  | .draw _ => false

/-- A command that has begun and still needs draws is stranded by a tear-down or a reseed (93_implementation_defined U6,
70_reset_and_hazards R195; assumption log 6). -/
def Phase.afterSource (a : SourceAction) : Phase → Phase
  | .fresh => .fresh
  | .begun t => if a.breaks then .stranded else .begun t
  | .stranded => .stranded

/-- Something happens at the random source: no register of the NTU changes (10_state R36, R39, 70_reset_and_hazards R187, R195). -/
def sourceTurn (a : SourceAction) (s : State) : State :=
  { s with source := s.source.act a, phase := s.phase.afterSource a }

/-- The directive `wr x<i>, v` on an NTU of `limbs` limbs: every limb is written (30_encoding R77, 70_reset_and_hazards R190). -/
def loadReg (limbs : Nat) (i : Reg) (v : Nat) : List HostAction :=
  (List.range limbs).map fun j => .write (limbIndex i j) (limbOf v j)

/-- The directive `wr ITER, v` (30_encoding R77). -/
def loadIter (v : Word) : HostAction := .write (0x0008 / 4) v

/-- Writing a command word to `CMD` (10_state R26). -/
def issue (w : Word) : HostAction := .write (0x0000 / 4) w

end Sys2Proof.Machine
end

