-- ==== Sys2Proof/Machine/Turns.lean ====
section
/-! DEFINITION. Which turn comes next and what it does (spec/00_scope.md R6, R10; assumption logs 4 and 18). -/

namespace Sys2Proof.Machine

/-- The next turn, and the state with it taken: the first of the list, then, in a run that goes on for ever, the free ones;
`none` when the host has no further access to make (00_scope R10). -/
def State.nextTurn (s : State) : Option (Turn × State) :=
  match s.schedule with
  | turn :: rest => some (turn, { s with schedule := rest })
  | [] =>
    match s.endless with
    | some n => some (Config.freeTurn n, { s with endless := some (n + 1) })
    | none => none

/-- One turn of one agent, an atomic step (00_scope R6). -/
def takeTurn (turn : Turn) (s : State) : Host.Outcome State Fault Refusal :=
  match turn with
  | .host a => hostTurn a s
  | .engine draws => engineTurn { s with pace := draws }
  | .source a => .next (sourceTurn a s)

end Sys2Proof.Machine
end

