-- ==== Sys2Proof/Machine/Step.lean ====
section
/-! DEFINITION. One step of the machine: the next turn of the run (spec/00_scope.md R6, R10). -/

namespace Sys2Proof.Machine

/-- The next turn is taken; with no turn left, the engine's own. -/
def step (s : State) : Host.Outcome State Fault Refusal :=
  match s.nextTurn with
  | some (turn, s') => takeTurn turn s'
  | none => owedTurn s

/-- The command word `w` accepted as by a host write to `CMD` (10_state R31), with an engine turn in front of the schedule, so
that the very next step executes it (assumption log 4). Bits at or above `nbits` are zero. -/
def State.withFetchWord (s : State) (nbits w : Nat) : State :=
  { s.accept (BitVec.ofNat 32 (w % 2 ^ nbits)) with schedule := .engine s.pace :: s.schedule }

end Sys2Proof.Machine
end

