-- ==== Sys2Proof/Safety.lean ====
section
/-! DEFINITION. The invariant of the machine and the notions of a run the spec names (spec/00_scope.md R7, R10, 10_state.md R20,
R27, R30, 44_genprime.md R134, 60_exceptions.md R160, R164). -/

namespace Sys2Proof.Machine

/-- Every wide register holds a natural below `2^OPW` (10_state R21, 00_scope R7). -/
def State.WideInRange (s : State) : Prop := ∀ i : Reg, s.getX i < 2 ^ s.params.opw

/-- `BUSY` and `DONE` are never both 1 (10_state R27); no code above 4 is produced (60_exceptions R160); `ERR` is 0 from the
accept step on (10_state R31, R32). -/
def State.StatusConsistent (s : State) : Prop :=
  ¬(s.busy = true ∧ s.done = true) ∧ s.err.toNat ≤ 4 ∧ (s.busy = true → s.err = 0)

/-- A test under way is past the fast paths and has a trial to run (43_isprime R117). -/
def Trials.UnderWay (t : Trials) (T : Nat) : Prop := t.n % 2 = 1 ∧ 5 ≤ t.n ∧ 1 ≤ t.left ∧ t.left ≤ T

/-- The temporaries belong to the command latched in `cmd` (10_state R30): an `ISPRIME` tests its operand; a `GENPRIME` whose
range check passed tests a candidate of `bits + 1` bits, if it tests one. -/
def State.Resumable (s : State) (test : Option Trials) : Prop :=
  (∃ rd rs1 t, decode s.cmd = .ok (.isprime rd rs1) ∧ test = some t ∧ t.n = s.getX rs1 ∧ t.UnderWay s.trialCount) ∨
  (∃ rd bits, decode s.cmd = .ok (.genprime rd bits) ∧ 1 ≤ bits.toNat ∧ bits.toNat + 1 ≤ s.params.opw ∧
    ∀ t, test = some t → 2 ^ bits.toNat < t.n ∧ t.n < 2 ^ (bits.toNat + 1) ∧ t.UnderWay s.trialCount)

/-- The latched command is one that draws (10_state R36). -/
def State.DrawingCommand (s : State) : Prop :=
  (∃ rd rs1, decode s.cmd = .ok (.isprime rd rs1)) ∨ (∃ rd bits, decode s.cmd = .ok (.genprime rd bits))

/-- Temporaries live only under a running command that draws, and only while its source is ready (10_state R30, R39, 93 U6). -/
def State.EngineConsistent (s : State) : Prop :=
  match s.phase with
  | .fresh => True
  | .begun test => s.busy = true ∧ s.source.ready = true ∧ s.Resumable test
  | .stranded => s.busy = true ∧ s.DrawingCommand

/-- The invariant: it holds after reset and every step keeps it. -/
def State.Inv (s : State) : Prop := s.WideInRange ∧ s.StatusConsistent ∧ s.EngineConsistent

/-- Nothing executes (00_scope R10). -/
def State.Quiescent (s : State) : Prop := s.busy = false

/-- A finite run has ended: no turn is left and no command is owed (00_scope R10). -/
def State.Ended (s : State) : Prop := s.schedule = [] ∧ s.endless = none ∧ s.busy = false

/-- No completion step has recorded a fault (60_exceptions R164). -/
def State.NoFaultRecorded (s : State) : Prop := s.faults = []

end Sys2Proof.Machine
end

