-- ==== Sys2Proof/Certificates/Slice0/Obligations.lean ====
section
/-! DEFINITION. The statements about the model, each a `def Obligations.<Name> : Prop`, with the vocabulary they are written in
(`Sys2Proof.Spec`): the spec's own formulas, written apart from the model's operations. -/

namespace Sys2Proof.Spec

open Sys2Proof.Machine

/-- The field of `width` bits from bit `lo` up, as an unsigned number (00_scope section 6). -/
def field (w : Word) (lo width : Nat) : Nat := w.toNat / 2 ^ lo % 2 ^ width

/-- The wide register a 3-bit selector field names (30_encoding R71, R74). -/
def regAt (w : Word) (lo : Nat) : Reg := Fin.ofNat 8 (field w lo 3)

/-- One bit as a number. -/
def bitNat (b : Bool) : Nat := if b then 1 else 0

/-- NL (00_scope R5). -/
def limbs (s : State) : Nat := s.params.limbsAboveTwo.val + 2

/-- OPW (00_scope R5). -/
def opw (s : State) : Nat := 32 * limbs s

/-- The trial count of 43_isprime R118, as an integer expression. -/
def trialCount (s : State) : Int := max ((s.iter.toNat : Int) - (s.params.trialOffset.val : Int)) 0

/-- The completion step without a fault (10_state R33): the result register, `BUSY`, `DONE`, `ERR`; temporaries gone (R30). -/
def completed (s : State) (rd : Reg) (v : Nat) : State :=
  { s with x := s.x.set rd.val v rd.isLt, busy := false, done := true, err := 0, phase := .fresh }

/-- The completion step of a MODINV (10_state R33): `NOINV` as well. -/
def completedFlag (s : State) (rd : Reg) (v : Nat) (noinv : Bool) : State :=
  { s with x := s.x.set rd.val v rd.isLt, busy := false, done := true, err := 0, phase := .fresh, noinv := noinv }

/-- Fault entry (60_exceptions R163): `ERR`, `BUSY`, `DONE`; temporaries gone. The model's record of faults grows (R164). -/
def faulted (s : State) (f : FaultCode) (code : BitVec 4) : State :=
  { s with busy := false, done := true, err := code, phase := .fresh, faults := f :: s.faults }

/-- The next turn of the run is `turn`, and `s'` is the state with it taken off the plan: the first listed one, or, past the
list in a run that goes on for ever, the next free one (00_scope R10). -/
def NextTurn (s : State) (turn : Turn) (s' : State) : Prop :=
  (∃ rest, s.schedule = turn :: rest ∧ s' = { s with schedule := rest }) ∨
  (s.schedule = [] ∧ ∃ n, s.endless = some n ∧ Config.freeTurn n = turn ∧ s' = { s with endless := some (n + 1) })

/-- No turn is left: the host has no further access to make (00_scope R10). -/
def NothingPlanned (s : State) : Prop := s.schedule = [] ∧ s.endless = none

/-- It is the engine that moves: its turn is next, or no turn is left. -/
def EngineMoves (s : State) : Prop := NothingPlanned s ∨ ∃ k s', NextTurn s (.engine k) s'

/-- A command is running and the engine moves next, in the state `u`: `s` with the turn taken off the plan and its draws in
`pace`; with no turn left, `s` with at least one draw. -/
def EngineRuns (s u : State) : Prop :=
  s.busy = true ∧
  ((∃ k s', NextTurn s (.engine k) s' ∧ u = { s' with pace := k }) ∨ (NothingPlanned s ∧ u = { s with pace := max s.pace 1 }))

/-- A command word with opcode `op` whose must-be-zero field is not zero ends in the `ILLEGAL` fault. -/
def IllegalWhenNotZero (op lo width : Nat) : Prop :=
  ∀ s u, EngineRuns s u → field s.cmd 28 4 = op → field s.cmd lo width ≠ 0 → step s = .next (faulted u .illegal 1)

/-- No row of 30_encoding R73 admits the word. -/
def NoRow (w : Word) : Prop :=
  w &&& 0xF007FFFF#32 ≠ 0x10000000#32 ∧ w &&& 0xF007FFFF#32 ≠ 0x20000000#32 ∧ w &&& 0xF000FFFF#32 ≠ 0x30000000#32 ∧
  w &&& 0xF03FFFFF#32 ≠ 0x40000000#32 ∧ w &&& 0xF1FF0000#32 ≠ 0x50000000#32

/-- The trial with witness `a` passes, in the closed form of 43_isprime R120. -/
def TrialPasses (n a : Nat) : Prop :=
  ∃ s r, n - 1 = 2 ^ s * r ∧ r % 2 = 1 ∧ (a ^ r % n = 1 ∨ ∃ j, j < s ∧ a ^ (2 ^ j * r) % n = n - 1)

/-- `T` trials one after another on `n`, from one state of the random source to another, with their verdict: one draw per
trial, made first, and an end at the first trial that fails (43_isprime R117, R119, R122). -/
inductive TrialRun (n : Nat) : Nat → Source → Bool → Source → Prop where
  | none (src : Source) : TrialRun n 0 src true src
  | pass (T : Nat) (src : Source) (b : Bool) (src' : Source)
      (hp : TrialPasses n (2 + (src.draw (.below (n - 3))).1))
      (hr : TrialRun n T (src.draw (.below (n - 3))).2 b src') : TrialRun n (T + 1) src b src'
  | fail (T : Nat) (src : Source)
      (hf : ¬ TrialPasses n (2 + (src.draw (.below (n - 3))).1)) :
      TrialRun n (T + 1) src false (src.draw (.below (n - 3))).2

/-- `IsProbablePrime` with `T` trials (43_isprime R117): the three fast paths in their order, then the trials. -/
def IsProbablePrime (n T : Nat) (src : Source) (b : Bool) (src' : Source) : Prop :=
  if n < 2 then b = false ∧ src' = src
  else if n % 2 = 0 ∧ n ≠ 2 then b = false ∧ src' = src
  else if n = 2 ∨ n = 3 then b = true ∧ src' = src
  else TrialRun n T src b src'

/-- The loop of 44_genprime R131 run to its end: candidates are drawn until one is odd and, with `2^bits` added, passes. -/
inductive GenRun (bits T : Nat) : Source → Nat → Source → Prop where
  | even (src : Source) (c : Nat) (src' : Source) (h : (src.draw (.bits bits)).1 % 2 ≠ 1)
      (hr : GenRun bits T (src.draw (.bits bits)).2 c src') : GenRun bits T src c src'
  | rejected (src mid : Source) (c : Nat) (src' : Source) (h : (src.draw (.bits bits)).1 % 2 = 1)
      (ht : IsProbablePrime ((src.draw (.bits bits)).1 + 2 ^ bits) T (src.draw (.bits bits)).2 false mid)
      (hr : GenRun bits T mid c src') : GenRun bits T src c src'
  | accepted (src src' : Source) (h : (src.draw (.bits bits)).1 % 2 = 1)
      (ht : IsProbablePrime ((src.draw (.bits bits)).1 + 2 ^ bits) T (src.draw (.bits bits)).2 true src') :
      GenRun bits T src ((src.draw (.bits bits)).1 + 2 ^ bits) src'

/-- The register a command writes (10_state R22). -/
def writes : Instr → Reg
  | .gcd rd _ _ => rd
  | .modinv rd _ _ => rd
  | .powmod rd _ _ _ => rd
  | .isprime rd _ => rd
  | .genprime rd _ => rd

/-- The registers a command reads (10_state R22). -/
def readsOf : Instr → List Reg
  | .gcd _ rs1 rs2 => [rs1, rs2]
  | .modinv _ rs1 rs2 => [rs1, rs2]
  | .powmod _ rs1 rs2 rs3 => [rs1, rs2, rs3]
  | .isprime _ rs1 => [rs1]
  | .genprime _ _ => []

/-- The value of the `STATUS` word (10_state R27). -/
def statusValue (s : State) : Nat :=
  bitNat s.busy + 2 * bitNat s.done + 4 * bitNat s.noinv + 8 * bitNat s.wrerr + 16 * s.err.toNat

/-- The value of the `PARAM` word (10_state R29). -/
def paramValue (s : State) : Nat := 1 + 2 ^ 8 * 8 + 2 ^ 12 * s.params.trialOffset.val + 2 ^ 16 * limbs s

/-- What `HostRead` returns at byte offset `off` of the window (20_memory R53): the control registers, reserved offsets, and
limb `(off mod 0x1000) / 4` of register `off / 0x1000 - 1`. -/
def readValue (s : State) (off : Nat) : Nat :=
  if off = 0x0000 then 0
  else if off = 0x0004 then statusValue s
  else if off = 0x0008 then s.iter.toNat
  else if off = 0x000C then paramValue s
  else if off < 0x1000 then 0
  else if off % 0x1000 / 4 < limbs s then
    s.getX (Fin.ofNat 8 (off / 0x1000 - 1)) / 2 ^ (32 * (off % 0x1000 / 4)) % 2 ^ 32
  else 0

/-- `x[i]` with limb `j` replaced by `v`, the other limbs kept (20_memory R54). -/
def limbReplaced (old j : Nat) (v : Word) : Nat :=
  old - old / 2 ^ (32 * j) % 2 ^ 32 * 2 ^ (32 * j) + v.toNat * 2 ^ (32 * j)

/-- The next turn is the host's reset. -/
def ResetTaken (s : State) : Prop := ∃ s', NextTurn s (.host .reset) s'

/-- The next turn is a host write to `CMD` while the unit is idle. -/
def AcceptTaken (s : State) : Prop := ∃ w s', NextTurn s (.host (.write (0x0000 / 4) w)) s' ∧ s.busy = false

/-- The step from `s` to `t` is a completion step: the engine moves, and a command that was running has ended. -/
def CompletionTaken (s t : State) : Prop :=
  EngineMoves s ∧ s.busy = true ∧ t.busy = false ∧ t.done = true

/-- The next turn is a host write of `v` at byte offset `off` inside the window; `s'` is the state with it taken off. -/
def HostWriteNext (s : State) (off : Nat) (v : Word) (s' : State) : Prop :=
  NextTurn s (.host (.write (off / 4) v)) s' ∧ off % 4 = 0 ∧ off < 0x9000

/-- The latched command makes draws (10_state R36). -/
def CommandDraws (s : State) : Prop :=
  (∃ rd rs1, decode s.cmd = .ok (.isprime rd rs1)) ∨ (∃ rd bits, decode s.cmd = .ok (.genprime rd bits))

/-- Answers to a request are below this (10_state R37, R38). -/
def answersBelow : Request → Nat
  | .bits len => 2 ^ len
  | .below bound => bound

end Sys2Proof.Spec

open Sys2Proof Sys2Proof.Machine

/-! ### Encoding -/

/-- 30_encoding R79: `decode` inverts `encode` on every command, and `encode` inverts `decode` on every legal word, so decoding
is injective on legal words; every word that is not legal is refused. -/
def Obligations.DecodeEncodeRoundTrip : Prop :=
  (∀ i : Instr, decode (encode i) = .ok i) ∧
  (∀ (w : Word) (i : Instr), decode w = .ok i → encode i = w) ∧
  (∀ (w w' : Word) (i : Instr), decode w = .ok i → decode w' = .ok i → w = w')

/-- 30_encoding R73, R74: a word is the command of a row exactly when `(w AND mask) = match`, with its operands in the fields
the row names; the rows are disjoint; a word of no row is no command. -/
def Obligations.MatchMaskDecidesCommand : Prop :=
  ∀ w : Word,
    (w &&& 0xF007FFFF#32 = 0x10000000#32 →
      decode w = .ok (.gcd (Spec.regAt w 25) (Spec.regAt w 22) (Spec.regAt w 19))) ∧
    (w &&& 0xF007FFFF#32 = 0x20000000#32 →
      decode w = .ok (.modinv (Spec.regAt w 25) (Spec.regAt w 22) (Spec.regAt w 19))) ∧
    (w &&& 0xF000FFFF#32 = 0x30000000#32 →
      decode w = .ok (.powmod (Spec.regAt w 25) (Spec.regAt w 22) (Spec.regAt w 19) (Spec.regAt w 16))) ∧
    (w &&& 0xF03FFFFF#32 = 0x40000000#32 → decode w = .ok (.isprime (Spec.regAt w 25) (Spec.regAt w 22))) ∧
    (w &&& 0xF1FF0000#32 = 0x50000000#32 →
      decode w = .ok (.genprime (Spec.regAt w 25) (BitVec.ofNat 16 (Spec.field w 0 16)))) ∧
    (Spec.NoRow w → ∃ e, decode w = .error e) ∧
    (opcodeTable.countP fun r => r.admits w) ≤ 1 ∧
    ((∃ r ∈ opcodeTable, r.admits w = true) ↔ ∃ i, decode w = .ok i)

/-- 30_encoding R71: where the six fields lie, their masks, and the word as the sum of its fields. -/
def Obligations.FormatFields : Prop :=
  (∀ w : Word,
    (unpack w).opcode.toNat = Spec.field w 28 4 ∧ (unpack w).rd.toNat = Spec.field w 25 3 ∧
    (unpack w).rs1.toNat = Spec.field w 22 3 ∧ (unpack w).rs2.toNat = Spec.field w 19 3 ∧
    (unpack w).rs3.toNat = Spec.field w 16 3 ∧ (unpack w).imm16.toNat = Spec.field w 0 16 ∧
    (w &&& 0xF0000000#32).toNat = Spec.field w 28 4 * 2 ^ 28 ∧ (w &&& 0x0E000000#32).toNat = Spec.field w 25 3 * 2 ^ 25 ∧
    (w &&& 0x01C00000#32).toNat = Spec.field w 22 3 * 2 ^ 22 ∧ (w &&& 0x00380000#32).toNat = Spec.field w 19 3 * 2 ^ 19 ∧
    (w &&& 0x00070000#32).toNat = Spec.field w 16 3 * 2 ^ 16 ∧ (w &&& 0x0000FFFF#32).toNat = Spec.field w 0 16) ∧
  (∀ f : Fields, (pack f).toNat =
    f.opcode.toNat * 2 ^ 28 + f.rd.toNat * 2 ^ 25 + f.rs1.toNat * 2 ^ 22 + f.rs2.toNat * 2 ^ 19 + f.rs3.toNat * 2 ^ 16 +
      f.imm16.toNat)

/-- 95_test_vectors V6: written-out words of each command, and two illegal ones. (That an illegal word is refused is the spec's;
which reason the decoder names for it is the model's, log entry 16.) -/
def Obligations.WrittenOutWordsDecode : Prop :=
  decode 0x14080000#32 = .ok (.gcd 2 0 1) ∧ decode 0x2AE00000#32 = .ok (.modinv 5 3 4) ∧
  decode 0x30530000#32 = .ok (.powmod 0 1 2 3) ∧ decode 0x42000000#32 = .ok (.isprime 1 0) ∧
  decode 0x5E00FFFF#32 = .ok (.genprime 7 65535) ∧ decode 0x420F0000#32 = .error .rs2NotZero ∧
  decode 0x00000000#32 = .error (.noCommand 0)

/-- 30_encoding R75, 60_exceptions R161: whatever word of no row is running, the engine ends it at once with `ILLEGAL`. -/
def Obligations.IllegalWordFaults : Prop :=
  ∀ s u : State, Spec.EngineRuns s u → Spec.NoRow s.cmd → step s = .next (Spec.faulted u .illegal 1)

/-- 30_encoding R78: each pseudo-instruction is one `POWMOD` with the word the table gives, and computes the source's block
operation when its modulus is not zero. -/
def Obligations.PseudoInstructions : Prop :=
  (∀ d m n : Reg, encblk d m n = .powmod d m n n ∧
    (encode (encblk d m n)).toNat = 3 * 2 ^ 28 + d.val * 2 ^ 25 + m.val * 2 ^ 22 + n.val * 2 ^ 19 + n.val * 2 ^ 16 ∧
    ∀ s : State, s.getX n ≠ 0 →
      exec (encblk d m n) s = .next (Spec.completed s d (s.getX m ^ s.getX n % s.getX n))) ∧
  (∀ d c e p : Reg, decblk d c e p = .powmod d c e p ∧
    (encode (decblk d c e p)).toNat = 3 * 2 ^ 28 + d.val * 2 ^ 25 + c.val * 2 ^ 22 + e.val * 2 ^ 19 + p.val * 2 ^ 16 ∧
    ∀ s : State, s.getX p ≠ 0 →
      exec (decblk d c e p) s = .next (Spec.completed s d (s.getX c ^ s.getX e % s.getX p))) ∧
  encode (encblk 7 6 3) = 0x3F9B0000#32

/-! ### The step and the life cycle of a command -/

/-- 10_state R32: when the engine moves, by its turn or because no turn is left, and the latched word decodes to `i`, the step
is `exec i`. Around `exec` the step takes the turn off the plan and sets how many draws it may make (log entries 4, 5, 11). -/
def Obligations.StepRunsDecodedCommand : Prop :=
  (∀ (s u : State) (i : Instr), Spec.EngineRuns s u → decode s.cmd = .ok i → step s = exec i u) ∧
  (∀ (s s' : State) (k : Nat), Spec.NextTurn s (.engine k) s' → s.busy = true → Spec.EngineRuns s { s' with pace := k }) ∧
  (∀ s : State, Spec.NothingPlanned s → s.busy = true → Spec.EngineRuns s { s with pace := max s.pace 1 })

/-- 60_exceptions R173 and 10_state R36, R39: an idle NTU keeps all its state over an engine turn and when no turn is left, and
what happens at the random source reaches no register of the NTU. -/
def Obligations.OtherTurnsLeaveRegisters : Prop :=
  (∀ (s s' : State) (k : Nat), Spec.NextTurn s (.engine k) s' → s.busy = false → step s = .next { s' with pace := k }) ∧
  (∀ s : State, Spec.NothingPlanned s → s.busy = false → step s = .next s) ∧
  (∀ (s s' : State) (a : SourceAction), Spec.NextTurn s (.source a) s' → s.phase = .fresh →
    ∃ src, step s = .next { s' with source := src })

/-- 00_scope R10: a state with `BUSY = 1` is never final: with no turn left, a running command that is not stranded (log entry 6)
has a step, and each such step ends it or makes a draw; an idle state with no turn left is final; and a run that goes on for
ever has a next turn in every state. -/
def Obligations.BusyIsNeverFinal : Prop :=
  (∀ s : State, s.Inv → Spec.NothingPlanned s → s.busy = true → s.phase ≠ .stranded →
    ∃ t, step s = .next t ∧ (t.busy = false ∨ s.source.log.length < t.source.log.length)) ∧
  (∀ s : State, s.Ended → step s = .next s) ∧
  (∀ (s t : State) (n : Nat), s.endless = some n → step s = .next t →
    (∃ turn s', Spec.NextTurn s turn s') ∧ (t.endless = some n ∨ t.endless = some (n + 1)))

/-- 10_state R31: a write of any word to `CMD` while idle is the accept step; an illegal word ends in `ILLEGAL` when the engine
has its turn; and a read of `STATUS` after the write sees `BUSY` and not the previous command's `DONE`. -/
def Obligations.AcceptStep : Prop :=
  (∀ (s s' : State) (w : Word), Spec.HostWriteNext s 0x0000 w s' → s.busy = false →
    step s = .next { s' with cmd := w, busy := true, done := false, err := 0, phase := .fresh }) ∧
  (∀ (s s' s'' : State) (w : Word) (k : Nat), Spec.HostWriteNext s 0x0000 w s' → Spec.NextTurn s' (.engine k) s'' →
    s.busy = false → Spec.NoRow w →
    ∃ t, Host.Core.run Sys2Proof.core 2 s = .next t ∧ t.err = 1 ∧ t.busy = false ∧ t.done = true ∧ t.x = s.x) ∧
  (∀ (s s' s'' : State) (w : Word), Spec.HostWriteNext s 0x0000 w s' → Spec.NextTurn s' (.host (.read (0x0004 / 4))) s'' →
    s.busy = false → ∃ t word, Host.Core.run Sys2Proof.core 2 s = .next t ∧ t.reads = word :: s.reads ∧
      word.getLsbD 0 = true ∧ word.getLsbD 1 = false)

/-- 20_memory R53: what a host read returns at every offset of the window, busy or not, with no effect on the NTU. -/
def Obligations.HostReadReturns : Prop :=
  ∀ (s s' : State) (off : Nat), Spec.NextTurn s (.host (.read (off / 4))) s' → off % 4 = 0 → off < 0x9000 →
    ∃ w : Word, w.toNat = Spec.readValue s off ∧ step s = .next { s' with reads := w :: s.reads }

/-- 20_memory R54: what a host write does at every offset of the window while the unit is idle. -/
def Obligations.HostWriteWhileIdle : Prop :=
  ∀ (s s' : State) (off : Nat) (v : Word), Spec.HostWriteNext s off v s' → s.busy = false →
    step s = .next (
      if off = 0x0000 then { s' with cmd := v, busy := true, done := false, err := 0, phase := .fresh }
      else if off = 0x0004 then { s' with wrerr := s.wrerr && !v.getLsbD 3 }
      else if off = 0x0008 then { s' with iter := v }
      else if off < 0x1000 then s'
      else if off % 0x1000 / 4 < Spec.limbs s then
        { s' with
          x := s.x.set (Fin.ofNat 8 (off / 0x1000 - 1)).val
            (Spec.limbReplaced (s.getX (Fin.ofNat 8 (off / 0x1000 - 1))) (off % 0x1000 / 4) v)
            (Fin.ofNat 8 (off / 0x1000 - 1)).isLt }
      else s')

/-- 20_memory R55, 60_exceptions R174: while busy, a write to `STATUS` acts as when idle, and every other write inside the
window is dropped and sets `WRERR`. -/
def Obligations.HostWriteWhileBusy : Prop :=
  ∀ (s s' : State) (off : Nat) (v : Word), Spec.HostWriteNext s off v s' → s.busy = true →
    step s = .next (
      if off = 0x0004 then { s' with wrerr := s.wrerr && !v.getLsbD 3 }
      else { s' with wrerr := true })

/-- 20_memory R66: an access at or beyond 0x9000 is outside the NTU. That the model refuses it is the model's choice
(log entry 10). -/
def Obligations.OutsideWindowRefused : Prop :=
  ∀ (s s' : State) (index : Nat) (v : Word), 0x9000 ≤ 4 * index →
    (Spec.NextTurn s (.host (.read index)) s' → step s = .refused (.outsideWindow index)) ∧
    (Spec.NextTurn s (.host (.write index v)) s' → step s = .refused (.outsideWindow index))

/-- 20_memory R51: the address map: each named word of the window lies at its offset. -/
def Obligations.AddressMap : Prop :=
  locate (0x0000 / 4) = some .cmd ∧ locate (0x0004 / 4) = some .status ∧ locate (0x0008 / 4) = some .iter ∧
  locate (0x000C / 4) = some .param ∧
  (∀ off, 0x0010 ≤ off → off ≤ 0x0FFC → locate (off / 4) = some .reserved) ∧
  (∀ (i : Reg) (j : Nat), j ≤ 1023 → locate ((0x1000 * (i.val + 1) + 4 * j) / 4) = some (.limb i j)) ∧
  (∀ index, 0x9000 ≤ 4 * index → locate index = none)

/-- 10_state R27: the fields of the `STATUS` word, its reserved bits 0, and in a state that meets the invariant `BUSY` and
`DONE` not both 1. -/
def Obligations.StatusWordFields : Prop :=
  (∀ s : State, s.statusWord.toNat = Spec.statusValue s ∧ s.statusWord.toNat < 2 ^ 8) ∧
  (∀ s : State, s.Inv → ¬(s.statusWord.getLsbD 0 = true ∧ s.statusWord.getLsbD 1 = true))

/-- 10_state R29: the `PARAM` word, the range of its `NL`, the spec's example, that no step changes it, and writes to it: ignored
while idle, dropped while busy. -/
def Obligations.ParamWord : Prop :=
  (∀ s : State, (s.readAt .param).toNat = Spec.paramValue s ∧ 2 ≤ Spec.limbs s ∧ Spec.limbs s ≤ 1024 ∧
    s.params.trialOffset.val ≤ 1) ∧
  (∀ s : State, Spec.opw s = 4096 → s.params.trialOffset.val = 1 → s.readAt .param = 0x00801801#32) ∧
  (∀ (s s' : State) (v : Word), Spec.HostWriteNext s 0x000C v s' →
    step s = .next (if s.busy then { s' with wrerr := true } else s')) ∧
  (∀ s t : State, step s = .next t → t.readAt .param = s.readAt .param)

/-- 20_memory R56: limb 0 is the least significant; a wide register in range is the sum of the limbs the host reads, and bit
`b` of limb `j` is bit `32 j + b` of the value. -/
def Obligations.LimbsAreLittleEndian : Prop :=
  ∀ (s : State) (i : Reg), s.getX i < 2 ^ Spec.opw s →
    s.getX i = ((List.range (Spec.limbs s)).map fun j => (s.readAt (.limb i j)).toNat * 2 ^ (32 * j)).sum ∧
    ∀ j b, j < Spec.limbs s → b < 32 → (s.readAt (.limb i j)).getLsbD b = (s.getX i).testBit (32 * j + b)

/-- 20_memory R57: limbs at or above NL read 0 and ignore writes; while busy a write to one is a dropped write; and a register
keeps every limb the host does not write. -/
def Obligations.MissingLimbs : Prop :=
  (∀ (s : State) (i : Reg) (j : Nat) (v : Word), Spec.limbs s ≤ j →
    s.readAt (.limb i j) = 0 ∧ (s.busy = false → s.writeAt v (.limb i j) = s) ∧
    (s.busy = true → s.writeAt v (.limb i j) = { s with wrerr := true })) ∧
  (∀ (s : State) (i i' : Reg) (j k : Nat) (v : Word), s.busy = false → j < Spec.limbs s →
    ((s.writeAt v (.limb i j)).readAt (.limb i j) = v) ∧
    ((i', k) ≠ (i, j) → (s.writeAt v (.limb i j)).readAt (.limb i' k) = s.readAt (.limb i' k)))

/-- 30_encoding R77, 70_reset_and_hazards R190: the directive `wr x<i>, v` leaves `x[i] = v` whatever the register held, and
changes nothing else of the NTU, when the unit is idle. -/
def Obligations.LoadRegisterDirective : Prop :=
  ∀ (s : State) (i : Reg) (v : Nat) (rest : List Turn),
    s.busy = false → s.getX i < 2 ^ Spec.opw s → v < 2 ^ Spec.opw s →
    s.schedule = (loadReg (Spec.limbs s) i v).map Turn.host ++ rest →
    Host.Core.run Sys2Proof.core (Spec.limbs s) s = .next { s with schedule := rest, x := s.x.set i.val v i.isLt }

/-- 10_state R43, 70_reset_and_hazards R185, R186: reset in any state, a running command included, puts every piece of NTU
state at its reset value and leaves the random source and `PARAM` as they were; the unit accepts a command at once. -/
def Obligations.ResetAction : Prop :=
  (∀ s s' : State, Spec.NextTurn s (.host .reset) s' →
    step s = .next { s' with
      x := Vector.replicate 8 0, iter := 0, busy := false, done := false, noinv := false, wrerr := false, err := 0, cmd := 0,
      phase := .fresh }) ∧
  (∀ (s s' s'' : State) (w : Word), Spec.NextTurn s (.host .reset) s' → Spec.NextTurn s' (.host (.write 0 w)) s'' →
    ∃ t, Host.Core.run Sys2Proof.core 2 s = .next t ∧ t.busy = true ∧ t.cmd = w ∧ t.err = 0 ∧ t.done = false) ∧
  (∀ i, State.reset.getX i = 0) ∧ State.reset.iter = 0 ∧ State.reset.statusWord = 0 ∧ State.reset.cmd = 0 ∧
  State.reset.phase = .fresh

/-! ### GCD -/

/-- 40_gcd R91: the result is the greatest common divisor, written in a completion step without a flag or a draw, for every
pair of operands and every choice of registers; a nonzero `rs3` or `imm16` is `ILLEGAL`. -/
def Obligations.GcdResult : Prop :=
  (∀ (rd rs1 rs2 : Reg) (s : State),
     exec (.gcd rd rs1 rs2) s = .next (Spec.completed s rd (Nat.gcd (s.getX rs1) (s.getX rs2)))) ∧
  (∀ s u : State, Spec.EngineRuns s u → s.cmd &&& 0xF007FFFF#32 = 0x10000000#32 →
    step s = .next (Spec.completed u (Spec.regAt s.cmd 25)
      (Nat.gcd (s.getX (Spec.regAt s.cmd 22)) (s.getX (Spec.regAt s.cmd 19))))) ∧
  Spec.IllegalWhenNotZero 1 0 19

/-- 40_gcd R92, of the value `execGcd` writes. -/
def Obligations.GcdLaws : Prop :=
  (∀ a, gcdResult a 0 = a) ∧ (∀ b, gcdResult 0 b = b) ∧
  (∀ a b, 0 < a → 0 < b → gcdResult a b = gcdResult b (a % b)) ∧
  (∀ a b, gcdResult a b = gcdResult b a) ∧
  (∀ a b, ¬(a = 0 ∧ b = 0) → gcdResult a b ∣ a ∧ gcdResult a b ∣ b) ∧
  (∀ a b d, d ∣ a → d ∣ b → d ∣ gcdResult a b)

/-! ### MODINV -/

/-- 41_modinv R96: a zero modulus is `DIVZERO`; a common divisor above 1 gives the sentinel 0 with `NOINV`; otherwise the
unique inverse below the modulus, with `NOINV` cleared; a nonzero `rs3` or `imm16` is `ILLEGAL`. -/
def Obligations.ModinvResult : Prop :=
  (∀ (rd rs1 rs2 : Reg) (s : State), s.getX rs2 = 0 → exec (.modinv rd rs1 rs2) s = .next (Spec.faulted s .divzero 2)) ∧
  (∀ (rd rs1 rs2 : Reg) (s : State), s.getX rs2 ≠ 0 → 1 < Nat.gcd (s.getX rs1) (s.getX rs2) →
    exec (.modinv rd rs1 rs2) s = .next (Spec.completedFlag s rd 0 true)) ∧
  (∀ (rd rs1 rs2 : Reg) (s : State), s.getX rs2 ≠ 0 → Nat.gcd (s.getX rs1) (s.getX rs2) = 1 →
    ∃ r, r < s.getX rs2 ∧ s.getX rs1 * r % s.getX rs2 = 1 % s.getX rs2 ∧
      (∀ r', r' < s.getX rs2 → s.getX rs1 * r' % s.getX rs2 = 1 % s.getX rs2 → r' = r) ∧
      exec (.modinv rd rs1 rs2) s = .next (Spec.completedFlag s rd r false)) ∧
  (∀ w : Word, w &&& 0xF007FFFF#32 = 0x20000000#32 →
    decode w = .ok (.modinv (Spec.regAt w 25) (Spec.regAt w 22) (Spec.regAt w 19))) ∧
  Spec.IllegalWhenNotZero 2 0 19

/-- 41_modinv R99, of the value and the flag `execModinv` writes. -/
def Obligations.ModinvLaws : Prop :=
  (∀ a n, 1 ≤ n → (modinvResult a n).1 < n) ∧
  (∀ a n, 1 ≤ n → Nat.gcd a n = 1 → a * (modinvResult a n).1 % n = 1 % n ∧ (modinvResult a n).2 = false) ∧
  (∀ a n, 1 ≤ n → 1 < Nat.gcd a n → modinvResult a n = (0, true)) ∧
  modinvResult 4 8 = (0, true) ∧
  (∀ a n, 1 ≤ n → (modinvResult a n).1 = (modinvResult (a % n) n).1) ∧
  (∀ a n, 1 ≤ n → (modinvResult a n = (0, false) ↔ n = 1))

/-! ### POWMOD -/

/-- 42_powmod R106: a zero modulus is `DIVZERO`; otherwise the exact power reduced, for every base and exponent; a nonzero
`imm16` is `ILLEGAL`. -/
def Obligations.PowmodResult : Prop :=
  (∀ (rd rs1 rs2 rs3 : Reg) (s : State), s.getX rs3 = 0 →
     exec (.powmod rd rs1 rs2 rs3) s = .next (Spec.faulted s .divzero 2)) ∧
  (∀ (rd rs1 rs2 rs3 : Reg) (s : State), s.getX rs3 ≠ 0 →
    exec (.powmod rd rs1 rs2 rs3) s = .next (Spec.completed s rd (s.getX rs1 ^ s.getX rs2 % s.getX rs3))) ∧
  (∀ w : Word, w &&& 0xF000FFFF#32 = 0x30000000#32 →
    decode w = .ok (.powmod (Spec.regAt w 25) (Spec.regAt w 22) (Spec.regAt w 19) (Spec.regAt w 16))) ∧
  Spec.IllegalWhenNotZero 3 0 16

/-- 42_powmod R109, of the value `execPowmod` writes. -/
def Obligations.PowmodLaws : Prop :=
  ∀ b e m, 1 ≤ m →
    powmodResult b e m < m ∧ powmodResult b 0 m = 1 % m ∧
    powmodResult b (e + 1) m = powmodResult b e m * b % m ∧
    powmodResult b (2 * e) m = powmodResult (b * b % m) e m ∧
    powmodResult b e m = powmodResult (b % m) e m ∧
    ∀ e', powmodResult b (e + e') m = powmodResult b e m * powmodResult b e' m % m

/-! ### The random source -/

/-- 10_state R37, R38, R40 (log entries 2, 3): an answer is below the request's bound, every value below it can be the answer, and a draw is
entered in the history and changes nothing else of the source. -/
def Obligations.DrawsAreFreeInRange : Prop :=
  (∀ (src : Source) (len : Nat), (src.draw (.bits len)).1 < 2 ^ len) ∧
  (∀ (src : Source) (bound : Nat), 2 ≤ bound → (src.draw (.below bound)).1 < bound) ∧
  (∀ (src : Source) (len v : Nat), v < 2 ^ len →
    (({ src with answers := v :: src.answers } : Source).draw (.bits len)).1 = v) ∧
  (∀ (src : Source) (bound v : Nat), v < bound →
    (({ src with answers := v :: src.answers } : Source).draw (.below bound)).1 = v) ∧
  (∀ (src : Source) (q : Request), (src.draw q).2 =
    { src with answers := src.answers.tail, log := { request := q, answer := (src.draw q).1 } :: src.log })

/-- 70_reset_and_hazards R195, 10_state R36: the source is shared. A draw by other software advances it exactly as a draw of the
NTU does and reaches nothing of the NTU, a running command included; of a source that is not ready it changes nothing (log entry
19); a reset of the NTU leaves the source as it stands, with the draws already made. -/
def Obligations.SharedSourceAdvances : Prop :=
  (∀ (s s' : State) (q : Request), Spec.NextTurn s (.source (.draw q)) s' → s.source.ready = true →
    ∃ v, (0 < Spec.answersBelow q → v < Spec.answersBelow q) ∧ v = (s.source.draw q).1 ∧
      step s = .next { s' with source := { s.source with
        answers := s.source.answers.tail, log := { request := q, answer := v } :: s.source.log } }) ∧
  (∀ (s s' : State) (q : Request), Spec.NextTurn s (.source (.draw q)) s' → s.source.ready = false → step s = .next s') ∧
  (∀ s s' : State, Spec.NextTurn s (.host .reset) s' → ∃ t, step s = .next t ∧ t.source = s.source)

/-- 10_state R41: seeded determinism, past the lined-up answers (log entry 3). An initialisation sets the seed and begins the
history anew; an answer is a function of the seed and of the requests since then, this one included; so two machines that differ
in the past of their sources alone are in one state from an initialisation with one seed on, in every run. -/
def Obligations.SeededDeterminism : Prop :=
  (∀ (s s' : State) (seed : BitVec 64), Spec.NextTurn s (.source (.init seed)) s' → s.phase = .fresh →
    step s = .next { s' with source := { ready := true, seed := seed, answers := s.source.answers, log := [] } }) ∧
  (∀ (src src' : Source) (q : Request), src.answers = [] → src'.answers = [] → src.seed = src'.seed →
    src.log.map Draw.request = src'.log.map Draw.request → (src.draw q).1 = (src'.draw q).1) ∧
  (∀ (s : State) (src : Source) (seed : BitVec 64) (s' : State) (k : Nat), Spec.NextTurn s (.source (.init seed)) s' →
    s.source.answers = src.answers →
    Host.Core.run Sys2Proof.core (k + 1) { s with source := src } = Host.Core.run Sys2Proof.core (k + 1) s)

/-! ### ISPRIME -/

/-- 43_isprime R121: for odd `n ≥ 5` the decomposition is the one pair `(s, r)` with `n - 1 = 2^s r`, `r` odd, and `s ≥ 1`: `s`
counts the trailing zero bits of `n - 1`, and `r = (n - 1) div 2^s`. -/
def Obligations.DecompositionUnique : Prop :=
  (∀ n, 5 ≤ n → n % 2 = 1 →
    1 ≤ (decomposition n).1 ∧ n - 1 = 2 ^ (decomposition n).1 * (decomposition n).2 ∧ (decomposition n).2 % 2 = 1 ∧
    (∀ s r : Nat, n - 1 = 2 ^ s * r → r % 2 = 1 → (s, r) = decomposition n) ∧
    (∀ j, j < (decomposition n).1 → (n - 1).testBit j = false) ∧ (n - 1).testBit (decomposition n).1 = true ∧
    (decomposition n).2 = (n - 1) / 2 ^ (decomposition n).1) ∧
  decomposition 5 = (2, 1) ∧ decomposition 7 = (1, 3) ∧ decomposition 25 = (3, 3) ∧ decomposition 561 = (4, 35) ∧
  decomposition 97 = (5, 3)

/-- 43_isprime R120: the trial's loop passes exactly when `a^r ≡ 1` or some `a^(2^j r) ≡ n - 1` with `j < s`. -/
def Obligations.TrialClosedForm : Prop :=
  (∀ n s r a : Nat, 5 ≤ n → n - 1 = 2 ^ s * r → r % 2 = 1 → 1 ≤ s → 2 ≤ a → a ≤ n - 2 →
    (trialPasses n s r a = true ↔ (a ^ r % n = 1 ∨ ∃ j, j ≤ s - 1 ∧ a ^ (2 ^ j * r) % n = n - 1))) ∧
  trialPasses 25 3 3 7 = true ∧ trialPasses 25 3 3 2 = false ∧ trialPasses 561 4 35 2 = false

/-- 43_isprime R118: the trial count saturates at 0 for either offset, and with `T = 0` the test is vacuous: `ISPRIME` reports
every odd `n ≥ 5` probably prime and makes no draw. -/
def Obligations.TrialCountSaturates : Prop :=
  (∀ s : State, (s.trialCount : Int) = Spec.trialCount s) ∧
  (∀ s : State, s.iter = 0 → s.trialCount = 0) ∧
  (∀ s : State, s.params.trialOffset.val = 1 → s.iter = 1 → s.trialCount = 0) ∧
  (∀ s : State, (s.readAt .param).toNat / 2 ^ 12 % 2 = s.params.trialOffset.val) ∧
  (∀ (rd rs1 : Reg) (s : State), s.phase = .fresh → s.source.ready = true → s.trialCount = 0 → s.getX rs1 % 2 = 1 →
     5 ≤ s.getX rs1 →
    exec (.isprime rd rs1) s = .next (Spec.completed s rd 1))

/-- 43_isprime R119: a trial makes exactly one draw, `RandBelow(n - 3)`, of a legal bound; its witness lies in `[2, n - 2]`,
and every value of that interval can occur. -/
def Obligations.WitnessRange : Prop :=
  ∀ (t : Trials), 5 ≤ t.n →
    2 ≤ t.n - 3 ∧
    (∀ src : Source,
      (runTrial t src).2 = (src.draw (.below (t.n - 3))).2 ∧
      2 ≤ 2 + (src.draw (.below (t.n - 3))).1 ∧ 2 + (src.draw (.below (t.n - 3))).1 ≤ t.n - 2 ∧
      ((runTrial t src).1 = .failed ↔
        trialPasses t.n (decomposition t.n).1 (decomposition t.n).2 (2 + (src.draw (.below (t.n - 3))).1) = false)) ∧
    ∀ a, 2 ≤ a → a ≤ t.n - 2 → ∃ src : Source, 2 + (src.draw (.below (t.n - 3))).1 = a

/-- 43_isprime R116, R117: started with a ready source and allowed its `T` draws in one turn, `ISPRIME` completes with 1 or 0,
the verdict of `IsProbablePrime` on its operand for the answers the source gives; an unready source is `RNGNRDY` for every
operand, with no draw; a nonzero `rs2`, `rs3` or `imm16` is `ILLEGAL`. -/
def Obligations.IsprimeResult : Prop :=
  (∀ (rd rs1 : Reg) (s : State), s.phase = .fresh → s.source.ready = false →
    exec (.isprime rd rs1) s = .next (Spec.faulted s .rngnrdy 4)) ∧
  (∀ (rd rs1 : Reg) (s : State), s.phase = .fresh → s.source.ready = true → s.trialCount ≤ s.pace →
    ∃ b src, Spec.IsProbablePrime (s.getX rs1) s.trialCount s.source b src ∧
      exec (.isprime rd rs1) s = .next (Spec.completed { s with source := src } rd (Spec.bitNat b))) ∧
  (∀ w : Word, w &&& 0xF03FFFFF#32 = 0x40000000#32 → decode w = .ok (.isprime (Spec.regAt w 25) (Spec.regAt w 22))) ∧
  Spec.IllegalWhenNotZero 4 0 22

/-- 43_isprime R122: how many draws the command makes: none on a fast path or when `T = 0`, `T` when it reports 1 after
trials, between 1 and `T` when it reports 0 after the fast paths. -/
def Obligations.IsprimeDrawCount : Prop :=
  ∀ (rd rs1 : Reg) (s t : State), s.phase = .fresh → s.source.ready = true → s.busy = true →
    exec (.isprime rd rs1) s = .next t →
    t.busy = false →
    if s.getX rs1 < 5 ∨ s.getX rs1 % 2 = 0 ∨ s.trialCount = 0 then t.source = s.source
    else
      (t.getX rd = 1 → t.source.log.length = s.source.log.length + s.trialCount) ∧
      (t.getX rd = 0 → s.source.log.length + 1 ≤ t.source.log.length ∧
        t.source.log.length ≤ s.source.log.length + s.trialCount) ∧
      (t.getX rd = 0 ∨ t.getX rd = 1)

/-- 43_isprime R123: (1) a prime is always reported prime; (2) below 2, or even and not 2, is always reported 0; (3) an odd
composite is reported 0 for some answer, and which numbers have strong liars in the spec's examples; (5) with `T = 0` every
odd number from 5 up is reported 1. -/
def Obligations.PrimesAlwaysPass : Prop :=
  (∀ (rd rs1 : Reg) (s : State), Nat.Prime (s.getX rs1) → s.phase = .fresh → s.source.ready = true → s.trialCount ≤ s.pace →
    ∃ src, exec (.isprime rd rs1) s = .next (Spec.completed { s with source := src } rd 1)) ∧
  (∀ (rd rs1 : Reg) (s : State), (s.getX rs1 < 2 ∨ (s.getX rs1 % 2 = 0 ∧ s.getX rs1 ≠ 2)) → s.phase = .fresh →
     s.source.ready = true →
    exec (.isprime rd rs1) s = .next (Spec.completed s rd 0)) ∧
  (∀ (rd rs1 : Reg) (s : State), s.getX rs1 % 2 = 1 → 5 ≤ s.getX rs1 → ¬ Nat.Prime (s.getX rs1) → s.phase = .fresh →
    s.source.ready = true → 1 ≤ s.trialCount → s.trialCount ≤ s.pace →
    ∃ answer src, answer < s.getX rs1 - 3 ∧
      exec (.isprime rd rs1) { s with source := { s.source with answers := answer :: s.source.answers } } =
        .next (Spec.completed { s with source := src } rd 0)) ∧
  (∀ a, 2 ≤ a → a ≤ 23 → (Spec.TrialPasses 25 a ↔ a = 7 ∨ a = 18)) ∧
  (∀ a, 2 ≤ a → a ≤ 559 → (Spec.TrialPasses 561 a ↔ a ∈ [50, 101, 103, 256, 305, 458, 460, 511])) ∧
  (∀ a, 2 ≤ a → a ≤ 7 → ¬ Spec.TrialPasses 9 a) ∧ (∀ a, 2 ≤ a → a ≤ 13 → ¬ Spec.TrialPasses 15 a) ∧
  (∀ (rd rs1 : Reg) (s : State), s.getX rs1 % 2 = 1 → 5 ≤ s.getX rs1 → s.trialCount = 0 → s.phase = .fresh →
     s.source.ready = true →
    exec (.isprime rd rs1) s = .next (Spec.completed s rd 1))

/-- 43_isprime R116 ("Always terminates: at most `T` trials"), 00_scope R10: with no turn left and a ready source, a running
`ISPRIME` completes within `T + 1` steps, whatever turns it had before (log entry 11). -/
def Obligations.IsprimeAlwaysEnds : Prop :=
  ∀ (s : State) (rd rs1 : Reg), s.Inv → Spec.NothingPlanned s → s.busy = true → s.phase ≠ .stranded →
    decode s.cmd = .ok (.isprime rd rs1) → (s.phase = .fresh → s.source.ready = true) →
    ∃ k t, k ≤ s.trialCount + 1 ∧ Host.Core.run Sys2Proof.core k s = .next t ∧ t.busy = false ∧ t.done = true ∧ t.err = 0

/-! ### GENPRIME -/

/-- 44_genprime R131: `RANGE` before `RNGNRDY`, each with no draw; otherwise the command completes exactly with the candidate
the sampling loop accepts, when the turn allows the draws of that loop, and else stays busy after the draws of its turn; a
nonzero `rs1`, `rs2` or `rs3` is `ILLEGAL`. -/
def Obligations.GenprimeResult : Prop :=
  (∀ (rd : Reg) (bits : BitVec 16) (s : State), s.phase = .fresh → (bits.toNat = 0 ∨ Spec.opw s < bits.toNat + 1) →
    exec (.genprime rd bits) s = .next (Spec.faulted s .range 3)) ∧
  (∀ (rd : Reg) (bits : BitVec 16) (s : State), s.phase = .fresh → 1 ≤ bits.toNat → bits.toNat + 1 ≤ Spec.opw s →
     s.source.ready = false →
    exec (.genprime rd bits) s = .next (Spec.faulted s .rngnrdy 4)) ∧
  (∀ (rd : Reg) (bits : BitVec 16) (s : State) (c : Nat) (src : Source), s.phase = .fresh → 1 ≤ bits.toNat →
     bits.toNat + 1 ≤ Spec.opw s → s.source.ready = true →
    Spec.GenRun bits.toNat s.trialCount s.source c src → src.log.length ≤ s.source.log.length + s.pace →
    exec (.genprime rd bits) s = .next (Spec.completed { s with source := src } rd c)) ∧
  (∀ (rd : Reg) (bits : BitVec 16) (s : State), s.phase = .fresh → 1 ≤ bits.toNat → bits.toNat + 1 ≤ Spec.opw s →
     s.source.ready = true →
    (∃ c src, Spec.GenRun bits.toNat s.trialCount s.source c src ∧
      exec (.genprime rd bits) s = .next (Spec.completed { s with source := src } rd c)) ∨
    (∃ src test, src.log.length = s.source.log.length + s.pace ∧
      exec (.genprime rd bits) s = .next { s with source := src, phase := .begun test })) ∧
  (∀ w : Word, w &&& 0xF1FF0000#32 = 0x50000000#32 →
    decode w = .ok (.genprime (Spec.regAt w 25) (BitVec.ofNat 16 (Spec.field w 0 16)))) ∧
  Spec.IllegalWhenNotZero 5 16 9

/-- 44_genprime R133: a candidate that is prime is accepted, whatever the witnesses: with such an answer next, a turn of
`T + 1` draws completes the command with it. -/
def Obligations.GenprimeAcceptsPrime : Prop :=
  ∀ (rd : Reg) (bits : BitVec 16) (s : State) (v : Nat) (rest : List Nat), s.phase = .fresh → 1 ≤ bits.toNat →
    bits.toNat + 1 ≤ Spec.opw s → s.source.ready = true →
    s.source.answers = v :: rest → v < 2 ^ bits.toNat → v % 2 = 1 → Nat.Prime (v + 2 ^ bits.toNat) →
    s.trialCount + 1 ≤ s.pace →
    ∃ src, exec (.genprime rd bits) s = .next (Spec.completed { s with source := src } rd (v + 2 ^ bits.toNat))

/-- 44_genprime R133: a source that answers every `RandBits` even keeps the command running for any number of draws: `BUSY`
stays 1 and no register changes. -/
def Obligations.GenprimeCanRunForever : Prop :=
  ∀ (rd : Reg) (bits : BitVec 16) (s : State), s.phase = .fresh → 1 ≤ bits.toNat → bits.toNat + 1 ≤ Spec.opw s →
    s.source.ready = true →
    s.source.answers.length = s.pace → (∀ a ∈ s.source.answers, a % 2 = 0) →
    ∃ src, src.log.length = s.source.log.length + s.pace ∧
      exec (.genprime rd bits) s = .next { s with source := src, phase := .begun none }

/-- 44_genprime R134 (1), (2), (5): whenever a `GENPRIME` completes without a fault, in whichever of its turns, the value
written is odd and has exactly `bits + 1` bits, and no other wide register, nor `ITER` nor `NOINV`, changes. -/
def Obligations.GenprimeShape : Prop :=
  ∀ (s t : State) (rd : Reg) (bits : BitVec 16), s.Inv → s.busy = true → Spec.EngineMoves s →
    decode s.cmd = .ok (.genprime rd bits) → step s = .next t →
    t.busy = false → t.err = 0 →
    2 ^ bits.toNat < t.getX rd ∧ t.getX rd < 2 ^ (bits.toNat + 1) ∧ bitlen (t.getX rd) = bits.toNat + 1 ∧
    t.getX rd % 2 = 1 ∧ (∀ i, i ≠ rd → t.getX i = s.getX i) ∧ t.iter = s.iter ∧ t.noinv = s.noinv

/-! ### Commands over several turns -/

/-- 10_state R32, R42: cutting a command's draws into two turns changes nothing: a turn of `k` draws that leaves it running,
then one of `m`, ends where one turn of `k + m` draws ends. -/
def Obligations.TurnsCompose : Prop :=
  ∀ (i : Instr) (s : State) (k m : Nat) (t u : State), exec i { s with pace := k } = .next t → t.busy = true →
    exec i { s with pace := k + m } = .next u →
    exec i { t with pace := m } = .next { u with pace := m }

/-- 93_implementation_defined U6, 10_state R39, 70_reset_and_hazards R195: when the source is torn down or reseeded under a command
that has begun, nothing of the NTU changes but that the command is stranded; it stays so, busy and with its registers, over every
step but a reset; its engine has no step; and a reset ends it. (That it stays so when the source comes back, and that a stop
stands for "stuck", is log entry 6.) -/
def Obligations.LostSourceStrandsCommand : Prop :=
  (∀ (s s' : State) (test : Option Trials), Spec.NextTurn s (.source .teardown) s' → s.phase = .begun test →
    step s = .next { s' with phase := .stranded, source := { s.source with ready := false } }) ∧
  (∀ (s s' : State) (seed : BitVec 64) (test : Option Trials), Spec.NextTurn s (.source (.init seed)) s' →
    s.phase = .begun test →
    step s = .next { s' with
      phase := .stranded, source := { ready := true, seed := seed, answers := s.source.answers, log := [] } }) ∧
  (∀ s t : State, s.Inv → s.phase = .stranded → step s = .next t → ¬ Spec.ResetTaken s →
    t.phase = .stranded ∧ t.busy = true ∧ t.x = s.x ∧ t.iter = s.iter ∧ t.done = s.done ∧ t.noinv = s.noinv ∧ t.err = s.err ∧
    t.cmd = s.cmd) ∧
  (∀ s : State, s.Inv → s.phase = .stranded → Spec.EngineMoves s → step s = .fault .drawUnanswered) ∧
  (∀ (rd rs1 : Reg) (s : State), s.phase = .stranded → exec (.isprime rd rs1) s = .fault .drawUnanswered) ∧
  (∀ (rd : Reg) (bits : BitVec 16) (s : State), s.phase = .stranded → exec (.genprime rd bits) s = .fault .drawUnanswered) ∧
  (∀ s : State, s.phase = .stranded → Spec.ResetTaken s → ∃ t, step s = .next t ∧ t.phase = .fresh ∧ t.busy = false)

/-! ### Frames and whole-machine rules -/

/-- The frame of the five commands (10_state R22, R23, R25, R28, R33): a turn that answers a next state changes no wide
register but `rd`, not `ITER`, `WRERR`, `cmd` or the parameters; `NOINV` only under MODINV; the source only under ISPRIME and
GENPRIME; nothing of the host's side. Every word of the window but `STATUS` and the limbs of `rd` reads as before. -/
def Obligations.CommandFrame : Prop :=
  ∀ (i : Instr) (s t : State), exec i s = .next t →
    (∀ r, r ≠ Spec.writes i → t.getX r = s.getX r) ∧
    t.iter = s.iter ∧ t.wrerr = s.wrerr ∧ t.cmd = s.cmd ∧ t.params = s.params ∧
    ((∀ rd rs1 rs2, i ≠ .modinv rd rs1 rs2) → t.noinv = s.noinv) ∧
    ((∀ rd rs1, i ≠ .isprime rd rs1) → (∀ rd bits, i ≠ .genprime rd bits) → t.source = s.source) ∧
    t.source.ready = s.source.ready ∧ t.source.seed = s.source.seed ∧ t.schedule = s.schedule ∧ t.endless = s.endless ∧
    t.pace = s.pace ∧ t.reads = s.reads ∧
    (∀ l, l ≠ .status → (∀ j, l ≠ .limb (Spec.writes i) j) → t.readAt l = s.readAt l)

/-- 10_state R22: a turn writes one register at most, `x[rd]`, and only when it completes without a fault; and it depends on
no wide register but the command's sources: states that agree on those go the same way, to the same result. -/
def Obligations.CommandReadsOnlySources : Prop :=
  (∀ (i : Instr) (s t : State), exec i s = .next t →
    t.x = s.x ∨ (t.busy = false ∧ t.done = true ∧ t.err = 0 ∧ ∃ v, t.x = s.x.set (Spec.writes i).val v (Spec.writes i).isLt)) ∧
  (∀ (i : Instr) (s : State) (x' : Vector Nat 8), (∀ r ∈ Spec.readsOf i, x'.get r = s.x.get r) →
    (∀ f, exec i s = .fault f → exec i { s with x := x' } = .fault f) ∧
    (∀ t, exec i s = .next t → ∃ t', exec i { s with x := x' } = .next t' ∧ t' = { t with x := t'.x } ∧
      ((t.x = s.x ∧ t'.x = x') ∨ t'.getX (Spec.writes i) = t.getX (Spec.writes i))))

/-- 10_state R32, R34, 20_memory R64: while a command stays running over a step, whatever agent takes the step, no
architectural state changes but `WRERR`, and that only by a write of the host. -/
def Obligations.NothingChangesWhileBusy : Prop :=
  ∀ (s t : State), step s = .next t → s.busy = true → t.busy = true →
    t.x = s.x ∧ t.iter = s.iter ∧ t.done = s.done ∧ t.noinv = s.noinv ∧ t.err = s.err ∧ t.cmd = s.cmd ∧
    t.params = s.params ∧ (t.wrerr = s.wrerr ∨ ∃ index v s', Spec.NextTurn s (.host (.write index v)) s')

/-- 10_state R20, R43: what writes each piece of the architectural state, over every step of every agent: a limb write while
idle or the completion step for a wide register, and then only the register written; a write while idle for `ITER`; the accept
step, the completion step, a dropped write or the clearing of it for the fields of `STATUS`; the accept step for `cmd`; and the
reset for all of them. -/
def Obligations.WhoWritesWhat : Prop :=
  ∀ (s t : State), step s = .next t →
    (∀ i, t.getX i ≠ s.getX i → Spec.ResetTaken s ∨
      (s.busy = false ∧ ∃ index v s' j, Spec.NextTurn s (.host (.write index v)) s' ∧ locate index = some (.limb i j) ∧
        j < Spec.limbs s) ∨
      (Spec.CompletionTaken s t ∧ t.err = 0 ∧ ∃ c, decode s.cmd = .ok c ∧ Spec.writes c = i)) ∧
    (t.iter ≠ s.iter → Spec.ResetTaken s ∨
      (s.busy = false ∧ ∃ s', Spec.NextTurn s (.host (.write (0x0008 / 4) t.iter)) s')) ∧
    (t.busy ≠ s.busy → Spec.ResetTaken s ∨ (Spec.AcceptTaken s ∧ t.busy = true) ∨ Spec.CompletionTaken s t) ∧
    (t.done ≠ s.done → Spec.ResetTaken s ∨ (Spec.AcceptTaken s ∧ t.done = false) ∨ Spec.CompletionTaken s t) ∧
    (t.noinv ≠ s.noinv → Spec.ResetTaken s ∨
      (Spec.CompletionTaken s t ∧ t.err = 0 ∧ ∃ rd rs1 rs2, decode s.cmd = .ok (.modinv rd rs1 rs2))) ∧
    (t.wrerr ≠ s.wrerr → Spec.ResetTaken s ∨
      (s.busy = true ∧ t.wrerr = true ∧ ∃ index v s', index ≠ 0x0004 / 4 ∧ Spec.NextTurn s (.host (.write index v)) s') ∨
      (t.wrerr = false ∧ ∃ (v : Word) (s' : State), v.getLsbD 3 = true ∧ Spec.NextTurn s (.host (.write (0x0004 / 4) v)) s')) ∧
    (t.err ≠ s.err → Spec.ResetTaken s ∨ (Spec.AcceptTaken s ∧ t.err = 0) ∨ Spec.CompletionTaken s t) ∧
    (t.cmd ≠ s.cmd → Spec.ResetTaken s ∨ Spec.AcceptTaken s)

/-- 10_state R33: a step that ends a command, and is not a reset, sets `DONE` and a code of 0 to 4 with it; with a nonzero code
no wide register and not `NOINV` is written. -/
def Obligations.CompletionIsOneStep : Prop :=
  ∀ (s t : State), step s = .next t → s.busy = true → t.busy = false → ¬ Spec.ResetTaken s →
    t.done = true ∧ t.err.toNat ≤ 4 ∧ t.iter = s.iter ∧ t.wrerr = s.wrerr ∧ t.cmd = s.cmd ∧
    (t.err ≠ 0 → t.x = s.x ∧ t.noinv = s.noinv) ∧
    (t.err = 0 → ∃ i v, decode s.cmd = .ok i ∧ t.x = s.x.set (Spec.writes i).val v (Spec.writes i).isLt)

/-- 10_state R25: `NOINV` is written only by a MODINV that completes without a fault, to 1 exactly when the operands have a
common divisor above 1, or by reset, whose value is 0; and no command reads it. -/
def Obligations.NoinvOnlyByModinv : Prop :=
  (∀ (s t : State), step s = .next t →
    t.noinv = s.noinv ∨
    (Spec.ResetTaken s ∧ t.noinv = false) ∨
    (∃ rd rs1 rs2, Spec.EngineMoves s ∧ s.busy = true ∧ decode s.cmd = .ok (.modinv rd rs1 rs2) ∧ s.getX rs2 ≠ 0 ∧ t.busy = false ∧ t.err = 0 ∧
      (t.noinv = true ↔ 1 < Nat.gcd (s.getX rs1) (s.getX rs2)))) ∧
  (∀ (rd rs1 rs2 : Reg) (s t : State), exec (.modinv rd rs1 rs2) s = .next t → s.getX rs2 ≠ 0 →
    (t.noinv = true ↔ 1 < Nat.gcd (s.getX rs1) (s.getX rs2))) ∧
  State.reset.noinv = false ∧
  (∀ (i : Instr) (s : State) (b : Bool) (t : State), exec i s = .next t →
     ∃ t', exec i { s with noinv := b } = .next t' ∧ t' = { t with noinv := t'.noinv })

/-- 60_exceptions R163: an engine turn that ends in a fault changes `BUSY`, `DONE` and `ERR` and nothing else of the NTU, and
has made no draw. (The record of faults is the model's, log entry 9.) -/
def Obligations.FaultsArePrecise : Prop :=
  ∀ s u t : State, Spec.EngineRuns s u → s.err = 0 → step s = .next t → t.err ≠ 0 →
    ∃ f, t = { u with busy := false, done := true, err := t.err, phase := .fresh, faults := f :: u.faults }

/-- 60_exceptions R161, R162: which fault a command reports when it begins, as an equivalence for each code: the first that
applies of ILLEGAL, RANGE, DIVZERO, RNGNRDY; and a command that has begun and gone on reports none. -/
def Obligations.FaultConditions : Prop :=
  (∀ s u t : State, Spec.EngineRuns s u → s.phase = .fresh → s.err = 0 → step s = .next t →
    (t.err = 1 ↔ Spec.NoRow s.cmd) ∧
    (t.err = 2 ↔ (∃ rd rs1 rs2, decode s.cmd = .ok (.modinv rd rs1 rs2) ∧ s.getX rs2 = 0) ∨
      (∃ rd rs1 rs2 rs3, decode s.cmd = .ok (.powmod rd rs1 rs2 rs3) ∧ s.getX rs3 = 0)) ∧
    (t.err = 3 ↔ ∃ rd bits, decode s.cmd = .ok (.genprime rd bits) ∧ (bits.toNat = 0 ∨ Spec.opw s ≤ bits.toNat)) ∧
    (t.err = 4 ↔ s.source.ready = false ∧ ((∃ rd rs1, decode s.cmd = .ok (.isprime rd rs1)) ∨
      (∃ rd bits, decode s.cmd = .ok (.genprime rd bits) ∧ bits.toNat ≠ 0 ∧ bits.toNat < Spec.opw s))) ∧
    t.err.toNat ≤ 4) ∧
  (∀ (s u t : State) (test : Option Trials), s.Inv → Spec.EngineRuns s u → s.phase = .begun test → step s = .next t → t.err = 0)

/-- 60_exceptions R164: the model's record of faults grows by the fault of that code in every step in which a running command
ends with a nonzero `ERR`, and is kept by every other step. (The record is the model's, log entry 9.) -/
def Obligations.FaultRecord : Prop :=
  ∀ s t : State, step s = .next t →
    if s.busy = true ∧ t.busy = false ∧ t.err ≠ 0 then ∃ f, t.faults = f :: s.faults ∧ f.code = t.err ∧ Spec.EngineMoves s
    else t.faults = s.faults

/-- 00_scope R7, 10_state R21, R27, R30, 60_exceptions R160: every step keeps the invariant: wide registers in range, `BUSY` and
`DONE` never both 1, `ERR` a legal code, the engine's temporaries those of the latched command. -/
def Obligations.StepKeepsInvariant : Prop := ∀ (s t : State), s.Inv → step s = .next t → t.Inv

/-- 10_state R43: the state after reset meets the invariant, whatever the two open parameters are. -/
def Obligations.ResetMeetsInvariant : Prop :=
  State.reset.Inv ∧ ∀ p src sched e k,
    ({ State.reset with params := p, source := src, schedule := sched, endless := e, pace := k } : State).Inv

/-- 00_scope R5, 10_state R29, R36, R42: no step changes the parameters; a host action, a reset included, changes nothing of the
random source; and whenever a step changes the source, it is either a turn of the source's own, or the engine's move under a
running command that draws, on a ready source, which takes the answers of its draws, enters them in the history, and keeps the
level and the seed. -/
def Obligations.ParametersAndSourceKept : Prop :=
  ∀ s t : State, step s = .next t →
    t.params = s.params ∧
    (∀ a s', Spec.NextTurn s (.host a) s' → t.source = s.source) ∧
    (t.source = s.source ∨
      (∃ a s', Spec.NextTurn s (.source a) s' ∧ t.source = s.source.act a) ∨
      (Spec.EngineMoves s ∧ s.busy = true ∧ s.source.ready = true ∧ Spec.CommandDraws s ∧
        ∃ new, t.source = { s.source with answers := s.source.answers.drop new.length, log := new ++ s.source.log }))
end

