-- ==== Sys2Proof/Laws/State.lean ====
section
/-! SUPPORT. One lemma per field and update of State, each true by unfolding the update, so that no later proof unfolds one. -/

namespace Sys2Proof.Machine

@[simp] theorem State.setX_x (s : State) (i : Reg) (v : Nat) : (s.setX i v).x = s.x.set i.val v i.isLt := rfl
@[simp] theorem State.setX_iter (s : State) (i : Reg) (v : Nat) : (s.setX i v).iter = s.iter := rfl
@[simp] theorem State.setX_busy (s : State) (i : Reg) (v : Nat) : (s.setX i v).busy = s.busy := rfl
@[simp] theorem State.setX_done (s : State) (i : Reg) (v : Nat) : (s.setX i v).done = s.done := rfl
@[simp] theorem State.setX_noinv (s : State) (i : Reg) (v : Nat) : (s.setX i v).noinv = s.noinv := rfl
@[simp] theorem State.setX_wrerr (s : State) (i : Reg) (v : Nat) : (s.setX i v).wrerr = s.wrerr := rfl
@[simp] theorem State.setX_err (s : State) (i : Reg) (v : Nat) : (s.setX i v).err = s.err := rfl
@[simp] theorem State.setX_cmd (s : State) (i : Reg) (v : Nat) : (s.setX i v).cmd = s.cmd := rfl
@[simp] theorem State.setX_params (s : State) (i : Reg) (v : Nat) : (s.setX i v).params = s.params := rfl
@[simp] theorem State.setX_phase (s : State) (i : Reg) (v : Nat) : (s.setX i v).phase = s.phase := rfl
@[simp] theorem State.setX_source (s : State) (i : Reg) (v : Nat) : (s.setX i v).source = s.source := rfl
@[simp] theorem State.setX_schedule (s : State) (i : Reg) (v : Nat) : (s.setX i v).schedule = s.schedule := rfl
@[simp] theorem State.setX_endless (s : State) (i : Reg) (v : Nat) : (s.setX i v).endless = s.endless := rfl
@[simp] theorem State.setX_pace (s : State) (i : Reg) (v : Nat) : (s.setX i v).pace = s.pace := rfl
@[simp] theorem State.setX_reads (s : State) (i : Reg) (v : Nat) : (s.setX i v).reads = s.reads := rfl
@[simp] theorem State.setX_faults (s : State) (i : Reg) (v : Nat) : (s.setX i v).faults = s.faults := rfl

@[simp] theorem State.accept_x (s : State) (w : Word) : (s.accept w).x = s.x := rfl
@[simp] theorem State.accept_iter (s : State) (w : Word) : (s.accept w).iter = s.iter := rfl
@[simp] theorem State.accept_busy (s : State) (w : Word) : (s.accept w).busy = true := rfl
@[simp] theorem State.accept_done (s : State) (w : Word) : (s.accept w).done = false := rfl
@[simp] theorem State.accept_noinv (s : State) (w : Word) : (s.accept w).noinv = s.noinv := rfl
@[simp] theorem State.accept_wrerr (s : State) (w : Word) : (s.accept w).wrerr = s.wrerr := rfl
@[simp] theorem State.accept_err (s : State) (w : Word) : (s.accept w).err = 0 := rfl
@[simp] theorem State.accept_cmd (s : State) (w : Word) : (s.accept w).cmd = w := rfl
@[simp] theorem State.accept_params (s : State) (w : Word) : (s.accept w).params = s.params := rfl
@[simp] theorem State.accept_phase (s : State) (w : Word) : (s.accept w).phase = .fresh := rfl
@[simp] theorem State.accept_source (s : State) (w : Word) : (s.accept w).source = s.source := rfl
@[simp] theorem State.accept_schedule (s : State) (w : Word) : (s.accept w).schedule = s.schedule := rfl
@[simp] theorem State.accept_endless (s : State) (w : Word) : (s.accept w).endless = s.endless := rfl
@[simp] theorem State.accept_pace (s : State) (w : Word) : (s.accept w).pace = s.pace := rfl
@[simp] theorem State.accept_reads (s : State) (w : Word) : (s.accept w).reads = s.reads := rfl
@[simp] theorem State.accept_faults (s : State) (w : Word) : (s.accept w).faults = s.faults := rfl

@[simp] theorem State.complete_x (s : State) (rd : Reg) (v : Nat) : (s.complete rd v).x = s.x.set rd.val v rd.isLt := rfl
@[simp] theorem State.complete_iter (s : State) (rd : Reg) (v : Nat) : (s.complete rd v).iter = s.iter := rfl
@[simp] theorem State.complete_busy (s : State) (rd : Reg) (v : Nat) : (s.complete rd v).busy = false := rfl
@[simp] theorem State.complete_done (s : State) (rd : Reg) (v : Nat) : (s.complete rd v).done = true := rfl
@[simp] theorem State.complete_noinv (s : State) (rd : Reg) (v : Nat) : (s.complete rd v).noinv = s.noinv := rfl
@[simp] theorem State.complete_wrerr (s : State) (rd : Reg) (v : Nat) : (s.complete rd v).wrerr = s.wrerr := rfl
@[simp] theorem State.complete_err (s : State) (rd : Reg) (v : Nat) : (s.complete rd v).err = 0 := rfl
@[simp] theorem State.complete_cmd (s : State) (rd : Reg) (v : Nat) : (s.complete rd v).cmd = s.cmd := rfl
@[simp] theorem State.complete_params (s : State) (rd : Reg) (v : Nat) : (s.complete rd v).params = s.params := rfl
@[simp] theorem State.complete_phase (s : State) (rd : Reg) (v : Nat) : (s.complete rd v).phase = .fresh := rfl
@[simp] theorem State.complete_source (s : State) (rd : Reg) (v : Nat) : (s.complete rd v).source = s.source := rfl
@[simp] theorem State.complete_schedule (s : State) (rd : Reg) (v : Nat) : (s.complete rd v).schedule = s.schedule := rfl
@[simp] theorem State.complete_endless (s : State) (rd : Reg) (v : Nat) : (s.complete rd v).endless = s.endless := rfl
@[simp] theorem State.complete_pace (s : State) (rd : Reg) (v : Nat) : (s.complete rd v).pace = s.pace := rfl
@[simp] theorem State.complete_reads (s : State) (rd : Reg) (v : Nat) : (s.complete rd v).reads = s.reads := rfl
@[simp] theorem State.complete_faults (s : State) (rd : Reg) (v : Nat) : (s.complete rd v).faults = s.faults := rfl

@[simp] theorem State.completeFlag_x (s : State) (rd : Reg) (v : Nat) (b : Bool) : (s.completeFlag rd v b).x = s.x.set rd.val v rd.isLt := rfl
@[simp] theorem State.completeFlag_iter (s : State) (rd : Reg) (v : Nat) (b : Bool) : (s.completeFlag rd v b).iter = s.iter := rfl
@[simp] theorem State.completeFlag_busy (s : State) (rd : Reg) (v : Nat) (b : Bool) : (s.completeFlag rd v b).busy = false := rfl
@[simp] theorem State.completeFlag_done (s : State) (rd : Reg) (v : Nat) (b : Bool) : (s.completeFlag rd v b).done = true := rfl
@[simp] theorem State.completeFlag_noinv (s : State) (rd : Reg) (v : Nat) (b : Bool) : (s.completeFlag rd v b).noinv = b := rfl
@[simp] theorem State.completeFlag_wrerr (s : State) (rd : Reg) (v : Nat) (b : Bool) : (s.completeFlag rd v b).wrerr = s.wrerr := rfl
@[simp] theorem State.completeFlag_err (s : State) (rd : Reg) (v : Nat) (b : Bool) : (s.completeFlag rd v b).err = 0 := rfl
@[simp] theorem State.completeFlag_cmd (s : State) (rd : Reg) (v : Nat) (b : Bool) : (s.completeFlag rd v b).cmd = s.cmd := rfl
@[simp] theorem State.completeFlag_params (s : State) (rd : Reg) (v : Nat) (b : Bool) : (s.completeFlag rd v b).params = s.params := rfl
@[simp] theorem State.completeFlag_phase (s : State) (rd : Reg) (v : Nat) (b : Bool) : (s.completeFlag rd v b).phase = .fresh := rfl
@[simp] theorem State.completeFlag_source (s : State) (rd : Reg) (v : Nat) (b : Bool) : (s.completeFlag rd v b).source = s.source := rfl
@[simp] theorem State.completeFlag_schedule (s : State) (rd : Reg) (v : Nat) (b : Bool) : (s.completeFlag rd v b).schedule = s.schedule := rfl
@[simp] theorem State.completeFlag_endless (s : State) (rd : Reg) (v : Nat) (b : Bool) : (s.completeFlag rd v b).endless = s.endless := rfl
@[simp] theorem State.completeFlag_pace (s : State) (rd : Reg) (v : Nat) (b : Bool) : (s.completeFlag rd v b).pace = s.pace := rfl
@[simp] theorem State.completeFlag_reads (s : State) (rd : Reg) (v : Nat) (b : Bool) : (s.completeFlag rd v b).reads = s.reads := rfl
@[simp] theorem State.completeFlag_faults (s : State) (rd : Reg) (v : Nat) (b : Bool) : (s.completeFlag rd v b).faults = s.faults := rfl

@[simp] theorem State.raise_x (s : State) (f : FaultCode) : (s.raise f).x = s.x := rfl
@[simp] theorem State.raise_iter (s : State) (f : FaultCode) : (s.raise f).iter = s.iter := rfl
@[simp] theorem State.raise_busy (s : State) (f : FaultCode) : (s.raise f).busy = false := rfl
@[simp] theorem State.raise_done (s : State) (f : FaultCode) : (s.raise f).done = true := rfl
@[simp] theorem State.raise_noinv (s : State) (f : FaultCode) : (s.raise f).noinv = s.noinv := rfl
@[simp] theorem State.raise_wrerr (s : State) (f : FaultCode) : (s.raise f).wrerr = s.wrerr := rfl
@[simp] theorem State.raise_err (s : State) (f : FaultCode) : (s.raise f).err = f.code := rfl
@[simp] theorem State.raise_cmd (s : State) (f : FaultCode) : (s.raise f).cmd = s.cmd := rfl
@[simp] theorem State.raise_params (s : State) (f : FaultCode) : (s.raise f).params = s.params := rfl
@[simp] theorem State.raise_phase (s : State) (f : FaultCode) : (s.raise f).phase = .fresh := rfl
@[simp] theorem State.raise_source (s : State) (f : FaultCode) : (s.raise f).source = s.source := rfl
@[simp] theorem State.raise_schedule (s : State) (f : FaultCode) : (s.raise f).schedule = s.schedule := rfl
@[simp] theorem State.raise_endless (s : State) (f : FaultCode) : (s.raise f).endless = s.endless := rfl
@[simp] theorem State.raise_pace (s : State) (f : FaultCode) : (s.raise f).pace = s.pace := rfl
@[simp] theorem State.raise_reads (s : State) (f : FaultCode) : (s.raise f).reads = s.reads := rfl
@[simp] theorem State.raise_faults (s : State) (f : FaultCode) : (s.raise f).faults = f :: s.faults := rfl

@[simp] theorem State.hostReset_x (s : State) : (s.hostReset).x = Vector.replicate 8 0 := rfl
@[simp] theorem State.hostReset_iter (s : State) : (s.hostReset).iter = 0 := rfl
@[simp] theorem State.hostReset_busy (s : State) : (s.hostReset).busy = false := rfl
@[simp] theorem State.hostReset_done (s : State) : (s.hostReset).done = false := rfl
@[simp] theorem State.hostReset_noinv (s : State) : (s.hostReset).noinv = false := rfl
@[simp] theorem State.hostReset_wrerr (s : State) : (s.hostReset).wrerr = false := rfl
@[simp] theorem State.hostReset_err (s : State) : (s.hostReset).err = 0 := rfl
@[simp] theorem State.hostReset_cmd (s : State) : (s.hostReset).cmd = 0 := rfl
@[simp] theorem State.hostReset_params (s : State) : (s.hostReset).params = s.params := rfl
@[simp] theorem State.hostReset_phase (s : State) : (s.hostReset).phase = .fresh := rfl
@[simp] theorem State.hostReset_source (s : State) : (s.hostReset).source = s.source := rfl
@[simp] theorem State.hostReset_schedule (s : State) : (s.hostReset).schedule = s.schedule := rfl
@[simp] theorem State.hostReset_endless (s : State) : (s.hostReset).endless = s.endless := rfl
@[simp] theorem State.hostReset_pace (s : State) : (s.hostReset).pace = s.pace := rfl
@[simp] theorem State.hostReset_reads (s : State) : (s.hostReset).reads = s.reads := rfl
@[simp] theorem State.hostReset_faults (s : State) : (s.hostReset).faults = s.faults := rfl

@[simp] theorem State.dropWrite_x (s : State) : (s.dropWrite).x = s.x := rfl
@[simp] theorem State.dropWrite_iter (s : State) : (s.dropWrite).iter = s.iter := rfl
@[simp] theorem State.dropWrite_busy (s : State) : (s.dropWrite).busy = s.busy := rfl
@[simp] theorem State.dropWrite_done (s : State) : (s.dropWrite).done = s.done := rfl
@[simp] theorem State.dropWrite_noinv (s : State) : (s.dropWrite).noinv = s.noinv := rfl
@[simp] theorem State.dropWrite_wrerr (s : State) : (s.dropWrite).wrerr = true := rfl
@[simp] theorem State.dropWrite_err (s : State) : (s.dropWrite).err = s.err := rfl
@[simp] theorem State.dropWrite_cmd (s : State) : (s.dropWrite).cmd = s.cmd := rfl
@[simp] theorem State.dropWrite_params (s : State) : (s.dropWrite).params = s.params := rfl
@[simp] theorem State.dropWrite_phase (s : State) : (s.dropWrite).phase = s.phase := rfl
@[simp] theorem State.dropWrite_source (s : State) : (s.dropWrite).source = s.source := rfl
@[simp] theorem State.dropWrite_schedule (s : State) : (s.dropWrite).schedule = s.schedule := rfl
@[simp] theorem State.dropWrite_endless (s : State) : (s.dropWrite).endless = s.endless := rfl
@[simp] theorem State.dropWrite_pace (s : State) : (s.dropWrite).pace = s.pace := rfl
@[simp] theorem State.dropWrite_reads (s : State) : (s.dropWrite).reads = s.reads := rfl
@[simp] theorem State.dropWrite_faults (s : State) : (s.dropWrite).faults = s.faults := rfl

@[simp] theorem sourceTurn_x (a : SourceAction) (s : State) : (sourceTurn a s).x = s.x := rfl
@[simp] theorem sourceTurn_iter (a : SourceAction) (s : State) : (sourceTurn a s).iter = s.iter := rfl
@[simp] theorem sourceTurn_busy (a : SourceAction) (s : State) : (sourceTurn a s).busy = s.busy := rfl
@[simp] theorem sourceTurn_done (a : SourceAction) (s : State) : (sourceTurn a s).done = s.done := rfl
@[simp] theorem sourceTurn_noinv (a : SourceAction) (s : State) : (sourceTurn a s).noinv = s.noinv := rfl
@[simp] theorem sourceTurn_wrerr (a : SourceAction) (s : State) : (sourceTurn a s).wrerr = s.wrerr := rfl
@[simp] theorem sourceTurn_err (a : SourceAction) (s : State) : (sourceTurn a s).err = s.err := rfl
@[simp] theorem sourceTurn_cmd (a : SourceAction) (s : State) : (sourceTurn a s).cmd = s.cmd := rfl
@[simp] theorem sourceTurn_params (a : SourceAction) (s : State) : (sourceTurn a s).params = s.params := rfl
@[simp] theorem sourceTurn_phase (a : SourceAction) (s : State) : (sourceTurn a s).phase = s.phase.afterSource a := rfl
@[simp] theorem sourceTurn_source (a : SourceAction) (s : State) : (sourceTurn a s).source = s.source.act a := rfl
@[simp] theorem sourceTurn_schedule (a : SourceAction) (s : State) : (sourceTurn a s).schedule = s.schedule := rfl
@[simp] theorem sourceTurn_endless (a : SourceAction) (s : State) : (sourceTurn a s).endless = s.endless := rfl
@[simp] theorem sourceTurn_pace (a : SourceAction) (s : State) : (sourceTurn a s).pace = s.pace := rfl
@[simp] theorem sourceTurn_reads (a : SourceAction) (s : State) : (sourceTurn a s).reads = s.reads := rfl
@[simp] theorem sourceTurn_faults (a : SourceAction) (s : State) : (sourceTurn a s).faults = s.faults := rfl

/-! The wide registers through their accessor. -/

/-- Reading a register after a write of register `i`. -/
theorem State.getX_setX (s : State) (i j : Reg) (v : Nat) : (s.setX i v).getX j = if j = i then v else s.getX j := by
  simp only [State.getX, State.setX, Vector.get_eq_getElem, Vector.getElem_set, Fin.ext_iff]
  simp only [eq_comm]

@[simp] theorem State.getX_setX_same (s : State) (i : Reg) (v : Nat) : (s.setX i v).getX i = v := by
  simp [State.getX_setX]

theorem State.getX_setX_other (s : State) (i j : Reg) (v : Nat) (h : j ≠ i) : (s.setX i v).getX j = s.getX j := by
  simp [State.getX_setX, h]

theorem State.getX_complete (s : State) (rd j : Reg) (v : Nat) :
    (s.complete rd v).getX j = if j = rd then v else s.getX j := State.getX_setX s rd j v

theorem State.getX_completeFlag (s : State) (rd j : Reg) (v : Nat) (b : Bool) :
    (s.completeFlag rd v b).getX j = if j = rd then v else s.getX j := State.getX_setX s rd j v

@[simp] theorem State.getX_raise (s : State) (f : FaultCode) (j : Reg) : (s.raise f).getX j = s.getX j := rfl

@[simp] theorem State.getX_accept (s : State) (w : Word) (j : Reg) : (s.accept w).getX j = s.getX j := rfl

@[simp] theorem State.getX_dropWrite (s : State) (j : Reg) : s.dropWrite.getX j = s.getX j := rfl

@[simp] theorem State.getX_sourceTurn (a : SourceAction) (s : State) (j : Reg) : (sourceTurn a s).getX j = s.getX j := rfl

@[simp] theorem State.getX_hostReset (s : State) (j : Reg) : s.hostReset.getX j = 0 := by
  simp [State.getX, Vector.get_eq_getElem]

@[simp] theorem State.getX_reset (j : Reg) : State.reset.getX j = 0 := by
  simp [State.getX, State.reset, Vector.get_eq_getElem]

/-- A write to `STATUS` touches `WRERR` at most (20_memory R54). -/
theorem State.writeStatus_eq (s : State) (v : Word) :
    s.writeStatus v = { s with wrerr := s.wrerr && !v.getLsbD 3 } := by
  unfold State.writeStatus
  cases v.getLsbD 3 <;> simp

end Sys2Proof.Machine
end

