-- ==== Sys2Proof/Laws/Ops.lean ====
section
/-! SUPPORT. What each shared operation can do, said once: the draw, the runner of commands that draw, the host port, `exec`,
`engineTurn` and `step`. Later proofs cite these and do not unfold the operations. -/

namespace Sys2Proof.Machine

/-! ### One draw -/

theorem Source.draw_answer_lt (src : Source) (q : Request) (h : 0 < q.bound) : (src.draw q).1 < q.bound :=
  Nat.mod_lt _ h

@[simp] theorem Source.draw_ready (src : Source) (q : Request) : (src.draw q).2.ready = src.ready := rfl

@[simp] theorem Source.draw_log (src : Source) (q : Request) :
    (src.draw q).2.log = { request := q, answer := (src.draw q).1 } :: src.log := rfl

@[simp] theorem Source.draw_seed (src : Source) (q : Request) : (src.draw q).2.seed = src.seed := rfl

@[simp] theorem Source.draw_answers (src : Source) (q : Request) : (src.draw q).2.answers = src.answers.tail := rfl

/-- A lined-up answer that is in range is the answer. -/
theorem Source.draw_of_answers (src : Source) (q : Request) (a : Nat) (rest : List Nat) (ha : src.answers = a :: rest)
    (h : a < q.bound) : (src.draw q).1 = a := by
  simp [Source.draw, ha, Nat.mod_eq_of_lt h]

@[simp] theorem runTrial_ready (t : Trials) (src : Source) : (runTrial t src).2.ready = src.ready := by
  unfold runTrial; dsimp only; split <;> rfl

/-- One trial makes one draw. -/
theorem runTrial_source (t : Trials) (src : Source) : (runTrial t src).2 = (src.draw (.below (t.n - 3))).2 := by
  unfold runTrial; dsimp only; split <;> rfl

/-- A trial that does not end the test leaves one trial less for the same number. -/
theorem runTrial_more (t t' : Trials) (src : Source) (h : (runTrial t src).1 = .more t') :
    t' = { n := t.n, left := t.left - 1 } ∧ 1 < t.left := by
  unfold runTrial at h
  dsimp only at h
  split at h
  · split at h
    · cases h
    · cases h; exact ⟨rfl, by omega⟩
  · cases h

/-- What can begin a test: only a number past the fast paths is left with trials to run. -/
theorem beginTest_more (n T : Nat) (t : Trials) (h : beginTest n T = .more t) :
    t = { n := n, left := T } ∧ n % 2 = 1 ∧ 5 ≤ n ∧ 1 ≤ T := by
  unfold beginTest at h
  split_ifs at h
  cases h
  exact ⟨rfl, by omega, by omega, by omega⟩

/-- An odd number from 5 up with no trial to run is passed. -/
theorem beginTest_vacuous (n : Nat) (hodd : n % 2 = 1) (h5 : 5 ≤ n) : beginTest n 0 = .passed := by
  unfold beginTest
  rw [if_neg (by omega), if_neg (by omega), if_neg (by omega), if_pos rfl]

/-- An odd number from 5 up with trials to run is not decided by the fast paths. -/
theorem beginTest_trials (n T : Nat) (hodd : n % 2 = 1) (h5 : 5 ≤ n) (hT : T ≠ 0) :
    beginTest n T = .more { n := n, left := T } := by
  unfold beginTest
  rw [if_neg (by omega), if_neg (by omega), if_neg (by omega), if_neg hT]

/-! ### The runner -/

section Drive
variable (next : Option Trials → Source → Progress × Source)

@[simp] theorem drive_zero (p : Progress) (src : Source) : drive next 0 p src = (p, src) := rfl

@[simp] theorem drive_finished (k v : Nat) (src : Source) : drive next k (.finished v) src = (.finished v, src) := by
  cases k <;> rfl

@[simp] theorem drive_succ (k : Nat) (t : Option Trials) (src : Source) :
    drive next (k + 1) (.running t) src = drive next k (next t src).1 (next t src).2 := rfl

/-- Draws made in two turns are the draws made in one. -/
theorem drive_add (k m : Nat) (p : Progress) (src : Source) :
    drive next (k + m) p src = drive next m (drive next k p src).1 (drive next k p src).2 := by
  induction k generalizing p src with
  | zero => simp
  | succ k ih =>
    cases p with
    | finished v => simp
    | running t => rw [show k + 1 + m = (k + m) + 1 by omega, drive_succ, drive_succ, ih]

/-- What every draw keeps, the runner keeps. -/
theorem drive_keeps (P : Progress → Source → Prop) (hnext : ∀ t src, P (.running t) src → P (next t src).1 (next t src).2)
    (k : Nat) (p : Progress) (src : Source) (h : P p src) : P (drive next k p src).1 (drive next k p src).2 := by
  induction k generalizing p src with
  | zero => exact h
  | succ k ih =>
    cases p with
    | finished v => exact h
    | running t => exact ih _ _ (hnext t src h)

/-- What a turn of a command that draws can do. -/
theorem pursue_cases (p : Progress) (rd : Reg) (s : State) :
    (s.source.ready = false ∧ pursue next p rd s = .fault .drawUnanswered) ∨
    (s.source.ready = true ∧ ∃ v src, drive next s.pace p s.source = (.finished v, src) ∧
      pursue next p rd s = .next ({ s with source := src }.complete rd v)) ∨
    (s.source.ready = true ∧ ∃ t src, drive next s.pace p s.source = (.running t, src) ∧
      pursue next p rd s = .next { s with source := src, phase := .begun t }) := by
  unfold pursue
  cases hr : s.source.ready with
  | false => simp
  | true =>
    rcases hd : drive next s.pace p s.source with ⟨_ | _, src⟩ <;> simp

/-- A turn that finishes completes the command. -/
theorem pursue_finished (p : Progress) (rd : Reg) (s : State) (v : Nat) (src : Source) (hr : s.source.ready = true)
    (hd : drive next s.pace p s.source = (.finished v, src)) :
    pursue next p rd s = .next ({ s with source := src }.complete rd v) := by
  simp [pursue, hr, hd]

/-- A turn that does not finish keeps the temporaries. -/
theorem pursue_running (p : Progress) (rd : Reg) (s : State) (t : Option Trials) (src : Source) (hr : s.source.ready = true)
    (hd : drive next s.pace p s.source = (.running t, src)) :
    pursue next p rd s = .next { s with source := src, phase := .begun t } := by
  simp [pursue, hr, hd]

end Drive

/-! ### The commands -/

/-- The register a command writes (10_state R22). -/
def destination : Instr → Reg
  | .gcd rd _ _ => rd
  | .modinv rd _ _ => rd
  | .powmod rd _ _ _ => rd
  | .isprime rd _ => rd
  | .genprime rd _ => rd

/-- The command makes draws (10_state R36). -/
def draws : Instr → Bool
  | .gcd .. => false
  | .modinv .. => false
  | .powmod .. => false
  | .isprime .. => true
  | .genprime .. => true

/-- What a turn of any command that answers a next state can do: a completion, a completion with the flag (MODINV only), a
fault, or a pause with temporaries (commands that draw only). -/
theorem exec_cases {i : Instr} {s t : State} (h : exec i s = .next t) :
    (∃ src v, (draws i = false → src = s.source) ∧ t = { s with source := src }.complete (destination i) v) ∨
    (∃ rd rs1 rs2, i = .modinv rd rs1 rs2 ∧ s.getX rs2 ≠ 0 ∧
      t = s.completeFlag rd (modinvResult (s.getX rs1) (s.getX rs2)).1 (modinvResult (s.getX rs1) (s.getX rs2)).2) ∨
    (∃ f, f ≠ .illegal ∧ t = s.raise f) ∨
    (∃ src test, draws i = true ∧ s.source.ready = true ∧ t = { s with source := src, phase := .begun test }) := by
  have key : ∀ next p rd, draws i = true → rd = destination i → pursue next p rd s = .next t →
      (∃ src v, (draws i = false → src = s.source) ∧ t = { s with source := src }.complete (destination i) v) ∨
      (∃ src test, draws i = true ∧ s.source.ready = true ∧ t = { s with source := src, phase := .begun test }) := by
    intro next p rd hd hrd hp
    subst hrd
    obtain ⟨-, he⟩ | ⟨hr, v, src, -, he⟩ | ⟨hr, test, src, -, he⟩ := pursue_cases next p (destination i) s <;>
      rw [he] at hp <;> cases hp
    · exact .inl ⟨src, v, by simp [hd], rfl⟩
    · exact .inr ⟨src, test, hd, hr, rfl⟩
  cases i with
  | gcd rd rs1 rs2 => cases h; exact .inl ⟨s.source, _, fun _ => rfl, rfl⟩
  | modinv rd rs1 rs2 =>
    simp only [exec, execModinv] at h
    split at h <;> cases h
    · exact .inr (.inr (.inl ⟨.divzero, by decide, rfl⟩))
    · exact .inr (.inl ⟨rd, rs1, rs2, rfl, ‹_›, rfl⟩)
  | powmod rd rs1 rs2 rs3 =>
    simp only [exec, execPowmod] at h
    split at h <;> cases h
    · exact .inr (.inr (.inl ⟨.divzero, by decide, rfl⟩))
    · exact .inl ⟨s.source, _, fun _ => rfl, rfl⟩
  | isprime rd rs1 =>
    simp only [exec, execIsprime] at h
    split at h
    · split at h
      · cases h; exact .inr (.inr (.inl ⟨.rngnrdy, by decide, rfl⟩))
      · exact (key _ _ rd rfl rfl h).imp id fun h => .inr (.inr h)
    · exact (key _ _ rd rfl rfl h).imp id fun h => .inr (.inr h)
    · cases h
  | genprime rd bits =>
    simp only [exec, execGenprime] at h
    split at h
    · split at h
      · cases h; exact .inr (.inr (.inl ⟨.range, by decide, rfl⟩))
      · split at h
        · cases h; exact .inr (.inr (.inl ⟨.rngnrdy, by decide, rfl⟩))
        · exact (key _ _ rd rfl rfl h).imp id fun h => .inr (.inr h)
    · exact (key _ _ rd rfl rfl h).imp id fun h => .inr (.inr h)
    · cases h

/-! ### The commands that draw, phase by phase -/

theorem execIsprime_notReady (rd rs1 : Reg) (s : State) (hp : s.phase = .fresh) (hr : s.source.ready = false) :
    exec (.isprime rd rs1) s = .next (s.raise .rngnrdy) := by
  simp only [exec, execIsprime, hp, hr, if_true]

theorem execIsprime_fresh (rd rs1 : Reg) (s : State) (hp : s.phase = .fresh) (hr : s.source.ready = true) :
    exec (.isprime rd rs1) s =
      pursue (isprimeDraw (s.getX rs1) s.trialCount) (isprimeProgress (beginTest (s.getX rs1) s.trialCount)) rd s := by
  simp only [exec, execIsprime, hp, hr, if_false, Bool.true_eq_false]

theorem execIsprime_begun (rd rs1 : Reg) (s : State) (t : Option Trials) (hp : s.phase = .begun t) :
    exec (.isprime rd rs1) s = pursue (isprimeDraw (s.getX rs1) s.trialCount) (.running t) rd s := by
  simp only [exec, execIsprime, hp]

theorem execGenprime_range (rd : Reg) (bits : BitVec 16) (s : State) (hp : s.phase = .fresh)
    (hb : bits.toNat = 0 ∨ s.params.opw < bits.toNat + 1) :
    exec (.genprime rd bits) s = .next (s.raise .range) := by
  have hb' : bitsOperand bits = 0 ∨ s.params.opw < bitsOperand bits + 1 := hb
  simp only [exec, execGenprime, hp, if_pos hb']

theorem execGenprime_notReady (rd : Reg) (bits : BitVec 16) (s : State) (hp : s.phase = .fresh)
    (hb : ¬(bits.toNat = 0 ∨ s.params.opw < bits.toNat + 1)) (hr : s.source.ready = false) :
    exec (.genprime rd bits) s = .next (s.raise .rngnrdy) := by
  have hb' : ¬(bitsOperand bits = 0 ∨ s.params.opw < bitsOperand bits + 1) := hb
  simp only [exec, execGenprime, hp, if_neg hb', hr, if_true]

theorem execGenprime_fresh (rd : Reg) (bits : BitVec 16) (s : State) (hp : s.phase = .fresh)
    (hb : ¬(bits.toNat = 0 ∨ s.params.opw < bits.toNat + 1)) (hr : s.source.ready = true) :
    exec (.genprime rd bits) s = pursue (genprimeDraw bits.toNat s.trialCount) (.running none) rd s := by
  have hb' : ¬(bitsOperand bits = 0 ∨ s.params.opw < bitsOperand bits + 1) := hb
  simp only [exec, execGenprime, hp, if_neg hb', hr, if_false, Bool.true_eq_false]
  rfl

theorem execGenprime_begun (rd : Reg) (bits : BitVec 16) (s : State) (t : Option Trials) (hp : s.phase = .begun t) :
    exec (.genprime rd bits) s = pursue (genprimeDraw bits.toNat s.trialCount) (.running t) rd s := by
  simp only [exec, execGenprime, hp, bitsOperand]

/-- What a turn of the engine that answers a next state can do. -/
theorem engineTurn_cases {s t : State} (h : engineTurn s = .next t) :
    (s.busy = false ∧ t = s) ∨
    (s.busy = true ∧ ∃ e, decode s.cmd = .error e ∧ t = s.raise .illegal) ∨
    (s.busy = true ∧ ∃ i, decode s.cmd = .ok i ∧ exec i s = .next t) := by
  cases hb : s.busy with
  | false =>
    simp only [engineTurn, hb] at h
    cases h; exact .inl ⟨rfl, rfl⟩
  | true =>
    simp only [engineTurn, hb, if_true] at h
    split at h
    · exact .inr (.inr ⟨rfl, _, ‹_›, h⟩)
    · cases h; exact .inr (.inl ⟨rfl, _, ‹_›, rfl⟩)

/-! ### The host port -/

/-- What a host write can do to the state. -/
theorem writeAt_cases (s : State) (v : Word) (l : Location) :
    (l = .status ∧ s.writeAt v l = { s with wrerr := s.wrerr && !v.getLsbD 3 }) ∨
    (l ≠ .status ∧ s.busy = true ∧ s.writeAt v l = s.dropWrite) ∨
    (l = .cmd ∧ s.busy = false ∧ s.writeAt v l = s.accept v) ∨
    (l = .iter ∧ s.busy = false ∧ s.writeAt v l = { s with iter := v }) ∨
    (∃ i j, l = .limb i j ∧ j < s.params.limbs ∧ s.busy = false ∧ s.writeAt v l = s.setX i (withLimb (s.getX i) j v)) ∨
    (l ≠ .status ∧ s.busy = false ∧ s.writeAt v l = s) := by
  cases hb : s.busy with
  | true => cases l <;> simp [State.writeAt, hb, State.writeStatus_eq]
  | false =>
    cases l with
    | limb i j => by_cases hj : j < s.params.limbs <;> simp [State.writeAt, State.writeIdle, hb, hj]
    | _ => simp [State.writeAt, State.writeIdle, hb, State.writeStatus_eq]

/-- What a host action that answers a next state can do. -/
theorem hostTurn_cases {a : HostAction} {s t : State} (h : hostTurn a s = .next t) :
    (a = .reset ∧ t = s.hostReset) ∨
    (∃ index l, a = .read index ∧ locate index = some l ∧ t = { s with reads := s.readAt l :: s.reads }) ∨
    (∃ index v l, a = .write index v ∧ locate index = some l ∧ t = s.writeAt v l) := by
  cases a with
  | reset => cases h; exact .inl ⟨rfl, rfl⟩
  | read index =>
    simp only [hostTurn] at h
    split at h <;> cases h
    exact .inr (.inl ⟨index, _, rfl, ‹_›, rfl⟩)
  | write index v =>
    simp only [hostTurn] at h
    split at h <;> cases h
    exact .inr (.inr ⟨index, v, _, rfl, ‹_›, rfl⟩)

/-! ### The random source -/

/-- What becomes of a command's temporaries over a turn of the source. -/
theorem Phase.afterSource_cases (a : SourceAction) (p : Phase) :
    p.afterSource a = p ∨ (a.breaks = true ∧ (∃ t, p = .begun t) ∧ p.afterSource a = .stranded) := by
  cases p with
  | fresh => exact .inl rfl
  | begun t => cases h : a.breaks <;> simp [Phase.afterSource, h]
  | stranded => exact .inl rfl

/-- What leaves the level down: the source was down and is not initialised, or it is torn down. -/
theorem Source.act_ready (src : Source) (a : SourceAction) :
    (src.act a).ready = match a with | .init _ => true | .teardown => false | .draw _ => src.ready := by
  cases a with
  | draw q => cases h : src.ready <;> simp [Source.act, h]
  | _ => rfl

/-! ### The step -/

/-- Which turn comes next. -/
theorem nextTurn_some {s s' : State} {turn : Turn} :
    s.nextTurn = some (turn, s') ↔
      (∃ rest, s.schedule = turn :: rest ∧ s' = { s with schedule := rest }) ∨
      (s.schedule = [] ∧ ∃ n, s.endless = some n ∧ Config.freeTurn n = turn ∧ s' = { s with endless := some (n + 1) }) := by
  unfold State.nextTurn
  cases hs : s.schedule with
  | cons u rest => simp [eq_comm]
  | nil => cases he : s.endless <;> simp [eq_comm]

/-- When no turn is left. -/
theorem nextTurn_none {s : State} : s.nextTurn = none ↔ s.schedule = [] ∧ s.endless = none := by
  unfold State.nextTurn
  cases hs : s.schedule with
  | cons u rest => simp
  | nil => cases he : s.endless <;> simp

/-- Taking the next turn off changes the plan and nothing else. -/
theorem nextTurn_state {s s' : State} {turn : Turn} (h : s.nextTurn = some (turn, s')) :
    ∃ sched e, s' = { s with schedule := sched, endless := e } := by
  obtain ⟨rest, -, rfl⟩ | ⟨-, n, -, -, rfl⟩ := nextTurn_some.1 h
  · exact ⟨rest, s.endless, rfl⟩
  · exact ⟨s.schedule, some (n + 1), rfl⟩

theorem step_of_turn {s s' : State} {turn : Turn} (h : s.nextTurn = some (turn, s')) : step s = takeTurn turn s' := by
  simp [step, h]

theorem step_of_none {s : State} (h : s.nextTurn = none) : step s = owedTurn s := by
  simp [step, h]

/-- What a step that answers a next state can do: the turn of one of the agents, or, when no turn is left, the engine's own. -/
theorem step_cases {s t : State} (h : step s = .next t) :
    (s.nextTurn = none ∧ s.busy = false ∧ t = s) ∨
    (s.nextTurn = none ∧ s.busy = true ∧ engineTurn { s with pace := max s.pace 1 } = .next t) ∨
    (∃ a s', s.nextTurn = some (.host a, s') ∧ hostTurn a s' = .next t) ∨
    (∃ k s', s.nextTurn = some (.engine k, s') ∧ engineTurn { s' with pace := k } = .next t) ∨
    (∃ a s', s.nextTurn = some (.source a, s') ∧ t = sourceTurn a s') := by
  cases hn : s.nextTurn with
  | none =>
    rw [step_of_none hn, owedTurn] at h
    cases hb : s.busy with
    | false => simp only [hb] at h; cases h; exact .inl ⟨rfl, rfl, rfl⟩
    | true => simp only [hb, if_true] at h; exact .inr (.inl ⟨rfl, rfl, h⟩)
  | some p =>
    obtain ⟨turn, s'⟩ := p
    rw [step_of_turn hn] at h
    cases turn with
    | host a => exact .inr (.inr (.inl ⟨a, s', rfl, h⟩))
    | engine k => exact .inr (.inr (.inr (.inl ⟨k, s', rfl, h⟩)))
    | source a => cases h; exact .inr (.inr (.inr (.inr ⟨a, s', rfl, rfl⟩)))

end Sys2Proof.Machine
end

