-- ==== Sys2Proof/Laws/PerInstr.lean ====
section
/-! SUPPORT. The statements made per instruction: family `EncodedLegal`, that the fields of a command pass the legality check of
spec/30_encoding.md R73 (no command encodes to an illegal word). -/

namespace Sys2Proof.Laws.EncodedLegal

/-- The fields of the command are those of a legal word (30_encoding R73, R75). -/
def Statement (i : Instr) : Prop := (fieldsOf i).wellFormed = true

theorem gcd (rd rs1 rs2 : Reg) : Statement (.gcd rd rs1 rs2) := rfl

theorem modinv (rd rs1 rs2 : Reg) : Statement (.modinv rd rs1 rs2) := rfl

theorem powmod (rd rs1 rs2 rs3 : Reg) : Statement (.powmod rd rs1 rs2 rs3) := rfl

theorem isprime (rd rs1 : Reg) : Statement (.isprime rd rs1) := rfl

theorem genprime (rd : Reg) (bits : BitVec 16) : Statement (.genprime rd bits) := rfl

end Sys2Proof.Laws.EncodedLegal
end

