-- ==== Sys2Proof/Tests/Slice0.lean ====
section
/-! SUPPORT. Tests of single steps, with expected results from spec/95_test_vectors.md and the worked examples of files 30 to 70,
and one witness for each statement's hypotheses. -/

namespace Sys2Proof.Tests

open Sys2Proof.Machine

/-- A field of the next state, if there is one. -/
def after {α : Type} (o : Host.Outcome State Fault Refusal) (f : State → α) : Option α :=
  match o with
  | .next t => some (f t)
  | .fault _ => none
  | .refused _ => none

/-- An NTU of OPW = 64 and MR_TRIAL_OFFSET = 1 with a ready source, the test vectors' usual setting (95_test_vectors). -/
def bench : State :=
  { State.reset with
    params := { limbsAboveTwo := 0, trialOffset := 1 }, source := { ready := true, seed := 0, answers := [], log := [] } }

/-- The bench with `x0` to `x3` loaded. -/
def loaded (a b c d : Nat) : State := (((bench.setX 0 a).setX 1 b).setX 2 c).setX 3 d

/-- The command word `w` accepted, and the engine's turn of `k` draws next, with the given answers lined up. -/
def issued (s : State) (w : Word) (k : Nat) (answers : List Nat) : State :=
  { s.accept w with schedule := [.engine k], source := { s.source with answers := answers } }

/-- The host's turn next. -/
def hosted (s : State) (a : HostAction) : State := { s with schedule := [.host a] }

/-! ### Legality of a word (30_encoding R73, R75): one ill-formed term for each check -/

theorem test_wf_opcode0 : (unpack 0x0FFFFFFF#32).wellFormed = false := by decide
theorem test_wf_opcode6 : (unpack 0x60000000#32).wellFormed = false := by decide
theorem test_wf_gcd_rs3 : (unpack 0x140B0000#32).wellFormed = false := by decide
theorem test_wf_gcd_imm : (unpack 0x14080001#32).wellFormed = false := by decide
theorem test_wf_modinv_rs3 : (unpack 0x2AE10000#32).wellFormed = false := by decide
theorem test_wf_modinv_imm : (unpack 0x2AE00001#32).wellFormed = false := by decide
theorem test_wf_powmod_imm : (unpack 0x30000001#32).wellFormed = false := by decide
theorem test_wf_isprime_rs2 : (unpack 0x42080000#32).wellFormed = false := by decide
theorem test_wf_isprime_rs3 : (unpack 0x42010000#32).wellFormed = false := by decide
theorem test_wf_isprime_imm : (unpack 0x42000001#32).wellFormed = false := by decide
theorem test_wf_genprime_rs1 : (unpack 0x51000010#32).wellFormed = false := by decide
theorem test_wf_genprime_rs2 : (unpack 0x50080010#32).wellFormed = false := by decide
theorem test_wf_genprime_rs3 : (unpack 0x50010010#32).wellFormed = false := by decide
theorem test_wf_legal : (unpack 0x3DE80000#32).wellFormed = true := by decide

/-! ### Decoding and encoding: words of 95_test_vectors V6, 30_encoding R77, R78 -/

theorem test_decode_gcd : decode 0x1FF00000#32 = .ok (.gcd 7 7 6) := by decide
theorem test_decode_modinv : decode 0x2AE00000#32 = .ok (.modinv 5 3 4) := by decide
theorem test_decode_powmod : decode 0x3DE80000#32 = .ok (.powmod 6 7 5 0) := by decide
theorem test_decode_isprime : decode 0x43800000#32 = .ok (.isprime 1 6) := by decide
theorem test_decode_genprime : decode 0x5600007F#32 = .ok (.genprime 3 127) := by decide
theorem test_decode_genprime_zero : decode 0x50000000#32 = .ok (.genprime 0 0) := by decide
theorem test_decode_opcode15 : decode 0xFFFFFFFF#32 = .error (.noCommand 15) := by decide
theorem test_decode_gcd_imm : decode 0x14080001#32 = .error .imm16NotZero := by decide
theorem test_decode_genprime_rs1 : decode 0x50400004#32 = .error .rs1NotZero := by decide
theorem test_encode_gcd : encode (.gcd 2 0 1) = 0x14080000#32 := by decide
theorem test_encode_modinv : encode (.modinv 3 1 0) = 0x26400000#32 := by decide
theorem test_encode_encblk : encode (encblk 7 6 3) = 0x3F9B0000#32 := by decide
theorem test_encode_decblk : encode (decblk 5 2 3 4) = 0x3A9C0000#32 := by decide
theorem test_encode_isprime : encode (.isprime 3 2) = 0x46800000#32 := by decide
theorem test_encode_genprime : encode (.genprime 7 65535) = 0x5E00FFFF#32 := by decide
theorem test_asm : asmText (.modinv 5 3 4) = "modinv x5, x3, x4" := by decide
theorem test_table_word : decodeTableWord 32 0x30530000 = some (.powmod 0 1 2 3) := by decide

/-! ### One step per command: 95_test_vectors V1 to V5, V8 -/

/-- V1 row 1. -/
theorem test_gcd : after (step (issued (loaded 48 18 0 0) 0x14080000#32 0 [])) (fun t => (t.getX 2, t.statusWord)) =
    some (6, 0x02#32) := by decide

/-- V1 row 11: operands near `2^64`. -/
theorem test_gcd_large :
    after (step (issued (loaded 18446744073709551615 4294967295 0 0) 0x14080000#32 0 [])) (fun t => t.getX 2) =
      some 4294967295 := by decide

/-- V2 row 11: a large modulus, a negative coefficient on the way. -/
theorem test_modinv_large :
    after (step (issued (loaded 65537 2305843009213693951 0 0) 0x24080000#32 0 [])) (fun t => (t.getX 2, t.statusWord)) =
      some (658852498444170971, 0x02#32) := by decide

/-- V2 row 2, the source's own example: the sentinel and the flag. -/
theorem test_modinv_sentinel :
    after (step (issued (loaded 4 8 57005 0) 0x24080000#32 0 [])) (fun t => (t.getX 2, t.statusWord)) =
      some (0, 0x06#32) := by decide

/-- V3 row 1. -/
theorem test_powmod :
    after (step (issued (loaded 0 4 13 497) 0x30530000#32 0 [])) (fun t => (t.getX 0, t.statusWord)) =
      some (445, 0x02#32) := by decide

/-- V3 row 11: all operands near `2^64`. -/
theorem test_powmod_large :
    after (step (issued (loaded 0 18446744073709551615 18446744073709551615 18446744073709551557) 0x30530000#32 0 []))
      (fun t => t.getX 0) = some 4959809447704153900 := by decide +kernel

/-- V4 row 18: 561 with two trials, the second of which fails. -/
theorem test_isprime :
    after (step (issued { loaded 561 7 0 0 with iter := 3 } 0x42000000#32 9 [48, 0, 5]))
      (fun t => (t.getX 1, t.statusWord, t.source.answers, t.source.log.length)) = some (0, 0x02#32, [5], 2) := by decide

/-- V4 row 15: 25 passes with witness 7, a strong liar. -/
theorem test_isprime_liar :
    after (step (issued { loaded 25 0 0 0 with iter := 2 } 0x42000000#32 9 [5])) (fun t => t.getX 1) = some 1 := by decide

/-- V5 row 1: seven draws, one candidate rejected. -/
theorem test_genprime :
    after (step (issued { loaded 0 0 0 0 with iter := 3 } 0x50000004#32 9 [6, 9, 5, 0, 13, 0, 25]))
      (fun t => (t.getX 0, t.statusWord, t.source.log.length)) = some (29, 0x02#32, 7) := by decide

/-- V5 row 1 cut after three draws: still busy, nothing written (10_state R32). -/
theorem test_genprime_paused :
    after (step (issued { loaded 0 0 0 0 with iter := 3 } 0x50000004#32 3 [6, 9, 5, 0, 13, 0, 25]))
      (fun t => (t.getX 0, t.statusWord, t.phase)) =
        some (0, 0x01#32, .begun (some { n := 25, left := 1 })) := by decide

/-- V8 row 2: DIVZERO keeps NOINV and the register. -/
theorem test_divzero :
    after (step (issued { loaded 3 0 57005 0 with noinv := true } 0x24080000#32 0 []))
      (fun t => (t.getX 2, t.statusWord)) = some (57005, 0x26#32) := by decide

/-- V8 row 6: RANGE before RNGNRDY. -/
theorem test_range_first :
    after (step { issued bench 0x50000000#32 0 [] with source := { ready := false, seed := 0, answers := [], log := [] } })
      (fun t => t.statusWord) = some 0x32#32 := by decide

/-- V8 row 8: RNGNRDY though 4 needs no draw. -/
theorem test_rngnrdy :
    after (step { issued (loaded 4 9 0 0) 0x42000000#32 0 [] with source := { ready := false, seed := 0, answers := [], log := [] } })
      (fun t => (t.getX 1, t.statusWord)) = some (9, 0x42#32) := by decide

/-- V8 row 4: an illegal word. -/
theorem test_illegal : after (step (issued bench 0x60000000#32 0 [])) (fun t => t.statusWord) = some 0x12#32 := by decide

/-! ### The window: 95_test_vectors V7 -/

/-- Step 2. -/
theorem test_read_param : after (step (hosted bench (.read 3))) (fun t => t.reads) = some [0x00021801#32] := by decide

/-- Steps 6 and 7: the upper limb of `x1` at 0x2004. -/
theorem test_write_limb :
    after (step (hosted (loaded 0 2 0 0) (.write (0x2004 / 4) 1#32))) (fun t => t.getX 1) = some 4294967298 := by decide

/-- Step 9: the upper limb is kept. -/
theorem test_keep_limb :
    after (step (hosted (loaded 0 4294967298 0 0) (.write (0x2000 / 4) 7#32))) (fun t => t.getX 1) =
      some 0x0000000100000007 := by decide

/-- Step 8: limb 2 does not exist at NL = 2. -/
theorem test_missing_limb :
    after (step (hosted (loaded 0 5 0 0) (.write (0x2008 / 4) 0xFFFFFFFF#32))) (fun t => t.getX 1) = some 5 := by decide

/-- Step 16: the accept step. -/
theorem test_accept :
    after (step (hosted { loaded 48 18 0 0 with done := true } (issue 0x14080000#32))) (fun t => (t.cmd, t.statusWord)) =
      some (0x14080000#32, 0x01#32) := by decide

/-- Step 18: a write while busy is dropped. -/
theorem test_dropped :
    after (step (hosted ((loaded 48 18 0 0).accept 0x14080000#32) (.write (0x1000 / 4) 99#32)))
      (fun t => (t.getX 0, t.statusWord)) = some (48, 0x09#32) := by decide

/-- Step 20: the write to STATUS is honoured while busy. -/
theorem test_clear_wrerr :
    after (step (hosted { (loaded 48 18 0 0).accept 0x14080000#32 with wrerr := true } (.write 1 8#32)))
      (fun t => t.statusWord) = some 0x01#32 := by decide

/-- Step 26: reset; PARAM is as before. -/
theorem test_reset :
    after (step (hosted { loaded 48 18 0 0 with iter := 7, done := true } .reset))
      (fun t => (t.getX 0, t.iter, t.statusWord, t.readAt .param)) = some (0, 0#32, 0#32, 0x00021801#32) := by decide

/-- 20_memory R66: outside the window. -/
theorem test_outside : after (step (hosted bench (.read 0x2400))) (fun t => t.reads) = none := by decide

/-- The first instruction after reset (fetch by `withFetchWord`): V1's `gcd x0, x0, x0`. -/
theorem test_first_instruction :
    after (step (State.reset.withFetchWord 32 0x10000000)) (fun t => (t.getX 0, t.statusWord)) = some (0, 0x02#32) := by decide

/-! ### Witnesses: for each statement with hypotheses, a state and operands that meet all of them, one per clause -/

/-- The bench with a command that has begun (`isprime x1, x0` on 25 with two trials, no trial made yet). -/
def begunBench : State :=
  { (loaded 25 0 0 0).accept 0x42000000#32 with iter := 3, phase := .begun (some { n := 25, left := 2 }) }

/-- The state with the first listed turn taken off. -/
def taken (s : State) : State := { s with schedule := s.schedule.tail }

/-- The engine's turn is next on an issued command. -/
theorem issued_runs (s : State) (w : Word) (k : Nat) (answers : List Nat) :
    Spec.EngineRuns (issued s w k answers) { taken (issued s w k answers) with pace := k } :=
  ⟨rfl, .inl ⟨k, _, .inl ⟨[], rfl, rfl⟩, rfl⟩⟩

/-- The host's turn is next. -/
theorem hosted_next (s : State) (a : HostAction) : Spec.NextTurn (hosted s a) (.host a) (taken (hosted s a)) :=
  .inl ⟨[], rfl, rfl⟩

/-- A turn of the source next. -/
def sourced (s : State) (a : SourceAction) : State := { s with schedule := [.source a] }

theorem sourced_next (s : State) (a : SourceAction) : Spec.NextTurn (sourced s a) (.source a) (taken (sourced s a)) :=
  .inl ⟨[], rfl, rfl⟩

/-- Two turns planned: both are next, one after the other. -/
theorem two_next (s : State) (t u : Turn) :
    Spec.NextTurn { s with schedule := [t, u] } t { s with schedule := [u] } ∧
    Spec.NextTurn { s with schedule := [u] } u { s with schedule := [] } :=
  ⟨.inl ⟨[u], rfl, rfl⟩, .inl ⟨[], rfl, rfl⟩⟩

/-- The bench, busy, with the source torn down. -/
def notReady (w : Word) : State :=
  { issued bench w 0 [] with source := { ready := false, seed := 0, answers := [], log := [] } }

theorem witness_DecodeEncodeRoundTrip : decode 0x10000000#32 = .ok (.gcd 0 0 0) := by decide

theorem witness_MatchMaskDecidesCommand :
    0x1FF80000#32 &&& 0xF007FFFF#32 = 0x10000000#32 ∧ 0x2FF80000#32 &&& 0xF007FFFF#32 = 0x20000000#32 ∧
    0x3FFF0000#32 &&& 0xF000FFFF#32 = 0x30000000#32 ∧ 0x4FC00000#32 &&& 0xF03FFFFF#32 = 0x40000000#32 ∧
    0x5E00FFFF#32 &&& 0xF1FF0000#32 = 0x50000000#32 ∧ Spec.NoRow 0x14080001#32 ∧
    (∃ r ∈ opcodeTable, r.admits 0x1FF80000#32 = true) := by unfold Spec.NoRow; decide

theorem witness_IllegalWordFaults :
    Spec.EngineRuns (issued bench 0x60000000#32 0 []) { taken (issued bench 0x60000000#32 0 []) with pace := 0 } ∧
    Spec.NoRow (issued bench 0x60000000#32 0 []).cmd := ⟨issued_runs _ _ _ _, by unfold Spec.NoRow; decide⟩

theorem witness_PseudoInstructions : (loaded 0 4 13 497).getX 3 ≠ 0 := by decide

theorem witness_StepRunsDecodedCommand :
    (Spec.EngineRuns (issued bench 0x10000000#32 0 []) { taken (issued bench 0x10000000#32 0 []) with pace := 0 } ∧
      decode (issued bench 0x10000000#32 0 []).cmd = .ok (.gcd 0 0 0)) ∧
    (Spec.NothingPlanned (bench.accept 0x10000000#32) ∧ (bench.accept 0x10000000#32).busy = true) :=
  ⟨⟨issued_runs _ _ _ _, by decide⟩, ⟨rfl, rfl⟩, rfl⟩

theorem witness_OtherTurnsLeaveRegisters :
    Spec.NextTurn { bench with schedule := [.engine 3] } (.engine 3) bench ∧ bench.busy = false ∧ Spec.NothingPlanned bench ∧
    Spec.NextTurn (sourced bench (.init 7)) (.source (.init 7)) (taken (sourced bench (.init 7))) ∧
    (sourced bench (.init 7)).phase = .fresh :=
  ⟨.inl ⟨[], rfl, rfl⟩, rfl, ⟨rfl, rfl⟩, sourced_next _ _, rfl⟩

/-- A running command with nothing planned, at a pace of 0 and begun; an ended run; a run that goes on for ever. -/
theorem witness_BusyIsNeverFinal :
    (({ begunBench with pace := 0 } : State).busy = true ∧ Spec.NothingPlanned { begunBench with pace := 0 } ∧
      ({ begunBench with pace := 0 } : State).phase ≠ .stranded) ∧
    bench.Ended ∧ ({ bench with endless := some 4 } : State).endless = some 4 :=
  ⟨⟨rfl, ⟨rfl, rfl⟩, by decide⟩, ⟨rfl, rfl, rfl⟩, rfl⟩

/-- A begun ISPRIME left at a pace of 0 by an engine turn without draws goes on when nothing is planned (00_scope R10). -/
theorem test_owed_turn :
    after (step { begunBench with pace := 0, source := { bench.source with answers := [0] } })
      (fun t => (t.busy, t.getX 1, t.source.log.length)) = some (false, 0, 1) := by decide

/-- Software's draw advances the source under a running command; a reseed strands the command (70_reset_and_hazards R195). -/
theorem test_shared_source :
    after (step (sourced { begunBench with source := { bench.source with answers := [3, 9] } } (.draw (.below 5))))
      (fun t => (t.source.answers, t.source.log.length, t.phase)) = some ([9], 1, begunBench.phase) ∧
    after (step (sourced begunBench (.init 7))) (fun t => (t.source.seed, t.phase)) = some (7#64, .stranded) := by decide

theorem witness_AcceptStep :
    Spec.HostWriteNext (hosted bench (.write 0 0xFFFFFFFF#32)) 0x0000 0xFFFFFFFF#32 (taken (hosted bench (.write 0 0xFFFFFFFF#32))) ∧
    (hosted bench (.write 0 0xFFFFFFFF#32)).busy = false := ⟨⟨hosted_next _ _, by decide⟩, rfl⟩

/-- An illegal word written, then the engine's turn; a legal one written, then a read of `STATUS`. -/
theorem witness_AcceptStep_after (u : Turn) :
    Spec.HostWriteNext { bench with schedule := [.host (.write 0 0#32), u] } 0x0000 0#32 { bench with schedule := [u] } ∧
    Spec.NextTurn { bench with schedule := [u] } u bench ∧ Spec.NoRow 0#32 ∧ bench.busy = false :=
  ⟨⟨(two_next bench _ u).1, by decide⟩, (two_next bench (.host (.write 0 0#32)) u).2, by unfold Spec.NoRow; decide, rfl⟩

theorem witness_HostReadReturns :
    ∀ off ∈ [0x0000, 0x0004, 0x0008, 0x000C, 0x0010, 0x0FFC, 0x1000, 0x1FFC, 0x8000, 0x8FFC],
      Spec.NextTurn (hosted bench (.read (off / 4))) (.host (.read (off / 4))) (taken (hosted bench (.read (off / 4)))) ∧
      off % 4 = 0 ∧ off < 0x9000 := fun off h => ⟨hosted_next _ _, by revert off; decide⟩

theorem witness_HostWriteWhileIdle :
    ∀ off ∈ [0x0000, 0x0004, 0x0008, 0x000C, 0x0010, 0x0FFC, 0x1000, 0x1004, 0x1008, 0x1FFC, 0x8000, 0x8FFC],
      Spec.HostWriteNext (hosted bench (.write (off / 4) 8#32)) off 8#32 (taken (hosted bench (.write (off / 4) 8#32))) ∧
      (hosted bench (.write (off / 4) 8#32)).busy = false :=
  fun off h => ⟨⟨hosted_next _ _, by revert off; decide⟩, rfl⟩

theorem witness_HostWriteWhileBusy :
    ∀ off ∈ [0x0000, 0x0004, 0x0008, 0x8FFC],
      Spec.HostWriteNext (hosted (bench.accept 0x10000000#32) (.write (off / 4) 8#32)) off 8#32
        (taken (hosted (bench.accept 0x10000000#32) (.write (off / 4) 8#32))) ∧
      (hosted (bench.accept 0x10000000#32) (.write (off / 4) 8#32)).busy = true :=
  fun off h => ⟨⟨hosted_next _ _, by revert off; decide⟩, rfl⟩

theorem witness_OutsideWindowRefused :
    0x9000 ≤ 4 * 0x2400 ∧
    Spec.NextTurn (hosted bench (.read 0x2400)) (.host (.read 0x2400)) (taken (hosted bench (.read 0x2400))) ∧
    Spec.NextTurn (hosted bench (.write 0x2400 1#32)) (.host (.write 0x2400 1#32)) (taken (hosted bench (.write 0x2400 1#32))) :=
  ⟨by decide, hosted_next _ _, hosted_next _ _⟩

theorem witness_AddressMap :
    locate (0x0010 / 4) = some .reserved ∧ locate (0x0FFC / 4) = some .reserved ∧
    locate ((0x1000 * (0 + 1) + 4 * 0) / 4) = some (.limb 0 0) ∧
    locate ((0x1000 * (7 + 1) + 4 * 1023) / 4) = some (.limb 7 1023) ∧ locate 0x2400 = none := by decide

/-- The bench meets the invariant. -/
theorem bench_inv : bench.Inv := by
  refine ⟨fun i => ?_, by unfold State.StatusConsistent; decide, trivial⟩
  rw [show bench.getX i = 0 from State.getX_reset i]
  exact Nat.two_pow_pos _

/-- So does the bench with any command accepted, whatever turns and answers are planned. -/
theorem issued_inv (w : Word) (k : Nat) (answers : List Nat) : (issued bench w k answers).Inv := by
  refine ⟨fun i => bench_inv.1 i, ?_, trivial⟩
  exact ⟨fun h => Bool.false_ne_true h.2, Nat.zero_le _, fun _ => rfl⟩

/-- So does the bench with a begun command. -/
theorem begunBench_inv : begunBench.Inv := by
  refine ⟨by unfold State.WideInRange; decide, ⟨by decide, by decide, by decide⟩, rfl, rfl, .inl ⟨1, 0, ⟨25, 2⟩, ?_⟩⟩
  exact ⟨by decide, rfl, by decide, by decide, by decide, by decide, by decide⟩

theorem witness_StatusWordFields : bench.Inv := bench_inv

theorem witness_ParamWord :
    (Spec.opw { bench with params := { limbsAboveTwo := 126, trialOffset := 1 } } = 4096) ∧
    Spec.HostWriteNext (hosted bench (.write 3 7#32)) 0x000C 7#32 (taken (hosted bench (.write 3 7#32))) ∧
    Spec.HostWriteNext (hosted (bench.accept 0#32) (.write 3 7#32)) 0x000C 7#32
      (taken (hosted (bench.accept 0#32) (.write 3 7#32))) :=
  ⟨by decide, ⟨hosted_next _ _, by decide⟩, hosted_next _ _, by decide⟩

theorem witness_LimbsAreLittleEndian :
    (loaded 0 18446744073709551615 0 0).getX 1 < 2 ^ Spec.opw (loaded 0 18446744073709551615 0 0) ∧
    1 < Spec.limbs bench ∧ 31 < 32 := by decide

theorem witness_MissingLimbs :
    Spec.limbs bench ≤ 2 ∧ Spec.limbs bench ≤ 1023 ∧ bench.busy = false ∧ (bench.accept 0#32).busy = true ∧
    1 < Spec.limbs bench ∧ ((0 : Reg), 1) ≠ (0, 0) ∧ ((1 : Reg), 0) ≠ (0, 0) := by decide

/-- `wr x1, 5` planned on the bench, whose `x1` holds a longer value. -/
def loading : State := { loaded 0 18446744073709551615 0 0 with schedule := (loadReg 2 1 5).map Turn.host }

theorem witness_LoadRegisterDirective :
    loading.busy = false ∧ loading.getX 1 < 2 ^ Spec.opw loading ∧ 5 < 2 ^ Spec.opw loading ∧
    loading.schedule = (loadReg (Spec.limbs loading) 1 5).map Turn.host ++ [] := by decide

theorem witness_ResetAction :
    Spec.NextTurn (hosted bench .reset) (.host .reset) (taken (hosted bench .reset)) ∧
    (Spec.NextTurn { bench with schedule := [.host .reset, .host (.write 0 1#32)] } (.host .reset)
        { bench with schedule := [.host (.write 0 1#32)] } ∧
      Spec.NextTurn { bench with schedule := [.host (.write 0 1#32)] } (.host (.write 0 1#32)) bench) :=
  ⟨hosted_next _ _, two_next bench _ _⟩

/-- The hypotheses of `IllegalWhenNotZero`, for each of the five commands. -/
theorem witness_IllegalWhenNotZero :
    ∀ c ∈ [(0x14080001#32, 1, 0, 19), (0x2AE10000#32, 2, 0, 19), (0x30000001#32, 3, 0, 16), (0x42080000#32, 4, 0, 22),
        (0x51000010#32, 5, 16, 9)],
      Spec.EngineRuns (issued bench c.1 0 []) { taken (issued bench c.1 0 []) with pace := 0 } ∧
      Spec.field (issued bench c.1 0 []).cmd 28 4 = c.2.1 ∧ Spec.field (issued bench c.1 0 []).cmd c.2.2.1 c.2.2.2 ≠ 0 :=
  fun c h => ⟨issued_runs _ _ _ _, by revert c; decide⟩

theorem witness_GcdResult :
    Spec.EngineRuns (issued bench 0x14080000#32 0 []) { taken (issued bench 0x14080000#32 0 []) with pace := 0 } ∧
    (issued bench 0x14080000#32 0 []).cmd &&& 0xF007FFFF#32 = 0x10000000#32 := ⟨issued_runs _ _ _ _, by decide⟩

theorem witness_GcdLaws : (0 < 18 ∧ 0 < 48) ∧ ¬(48 = 0 ∧ 18 = 0) ∧ ¬(0 = 0 ∧ 7 = 0) ∧ 6 ∣ 48 ∧ 6 ∣ 18 := by decide

theorem witness_ModinvResult :
    (loaded 3 0 0 0).getX 1 = 0 ∧ ((loaded 4 8 0 0).getX 1 ≠ 0 ∧ 1 < Nat.gcd ((loaded 4 8 0 0).getX 0) ((loaded 4 8 0 0).getX 1)) ∧
    ((loaded 5 1 0 0).getX 1 ≠ 0 ∧ Nat.gcd ((loaded 5 1 0 0).getX 0) ((loaded 5 1 0 0).getX 1) = 1) ∧
    0x2FF80000#32 &&& 0xF007FFFF#32 = 0x20000000#32 := by decide

theorem witness_ModinvLaws : 1 ≤ 1 ∧ Nat.gcd 0 1 = 1 ∧ 1 < Nat.gcd 0 2 := by decide

theorem witness_PowmodResult :
    (loaded 9 9 0 0).getX 2 = 0 ∧ (loaded 5 0 1 0).getX 2 ≠ 0 ∧ 0x3FFF0000#32 &&& 0xF000FFFF#32 = 0x30000000#32 := by decide

theorem witness_PowmodLaws : 1 ≤ 1 := by decide

theorem witness_DrawsAreFreeInRange : 2 ≤ 2 ∧ 1 < 2 ^ 1 ∧ 1 < 2 ∧ 0 < 2 := by decide

theorem witness_SharedSourceAdvances :
    (Spec.NextTurn (sourced bench (.draw (.below 5))) (.source (.draw (.below 5))) (taken (sourced bench (.draw (.below 5)))) ∧
      bench.source.ready = true ∧ 0 < Spec.answersBelow (.below 5)) ∧
    (sourced (notReady 0#32) (.draw (.bits 3))).source.ready = false ∧
    Spec.NextTurn (hosted bench .reset) (.host .reset) (taken (hosted bench .reset)) :=
  ⟨⟨sourced_next _ _, rfl, by decide⟩, rfl, hosted_next _ _⟩

theorem witness_SeededDeterminism :
    (Spec.NextTurn (sourced bench (.init 7)) (.source (.init 7)) (taken (sourced bench (.init 7))) ∧ bench.phase = .fresh) ∧
    (({ ready := true, seed := 7, answers := [], log := [⟨.below 5, 1⟩] } : Source).log.map Draw.request =
      ({ ready := true, seed := 7, answers := [], log := [⟨.below 5, 2⟩] } : Source).log.map Draw.request) ∧
    bench.source.answers = ({ ready := false, seed := 1, answers := [], log := [⟨.bits 2, 1⟩] } : Source).answers :=
  ⟨⟨sourced_next _ _, rfl⟩, rfl, rfl⟩

theorem witness_DecompositionUnique : 5 ≤ 5 ∧ 5 % 2 = 1 ∧ 5 - 1 = 2 ^ 2 * 1 ∧ 1 % 2 = 1 := by decide

theorem witness_TrialClosedForm :
    5 ≤ 7 ∧ 7 - 1 = 2 ^ 1 * 3 ∧ 3 % 2 = 1 ∧ 1 ≤ 1 ∧ 2 ≤ 2 ∧ 2 ≤ 7 - 2 ∧ 2 ≤ 5 ∧ 5 ≤ 7 - 2 := by decide

theorem witness_TrialCountSaturates :
    bench.iter = 0 ∧ bench.params.trialOffset.val = 1 ∧ ({ bench with iter := 1 } : State).iter = 1 ∧
    ((loaded 9 0 0 0).phase = .fresh ∧ (loaded 9 0 0 0).source.ready = true ∧ (loaded 9 0 0 0).trialCount = 0 ∧
      (loaded 9 0 0 0).getX 0 % 2 = 1 ∧ 5 ≤ (loaded 9 0 0 0).getX 0) := by decide

theorem witness_WitnessRange : 5 ≤ ({ n := 5, left := 1 } : Trials).n ∧ 2 ≤ 3 ∧ 3 ≤ 5 - 2 := by decide

theorem witness_IsprimeResult :
    ((notReady 0x42000000#32).phase = .fresh ∧ (notReady 0x42000000#32).source.ready = false) ∧
    ((bench.phase = .fresh ∧ bench.source.ready = true ∧ bench.trialCount ≤ bench.pace) ∧
      ({ bench with iter := 3, pace := 2 } : State).trialCount = 2) ∧
    0x4FC00000#32 &&& 0xF03FFFFF#32 = 0x40000000#32 := by decide

/-- Three commands that complete, one for each case of the count: no draw, reported 1, reported 0. -/
theorem witness_IsprimeDrawCount :
    after (exec (.isprime 1 0) (issued (loaded 4 0 0 0) 0x42000000#32 0 [])) (fun t => (t.busy, t.getX 1)) = some (false, 0) ∧
    after (exec (.isprime 1 0) { issued (loaded 25 0 0 0) 0x42000000#32 0 [5] with iter := 2, pace := 1 })
      (fun t => (t.busy, t.getX 1)) = some (false, 1) ∧
    after (exec (.isprime 1 0) { issued (loaded 25 0 0 0) 0x42000000#32 0 [0] with iter := 2, pace := 1 })
      (fun t => (t.busy, t.getX 1)) = some (false, 0) := by decide

theorem witness_PrimesAlwaysPass :
    (Nat.Prime ((loaded 5 0 0 0).getX 0) ∧ (loaded 5 0 0 0).phase = .fresh ∧ (loaded 5 0 0 0).source.ready = true ∧
      (loaded 5 0 0 0).trialCount ≤ (loaded 5 0 0 0).pace) ∧
    ((loaded 1 0 0 0).getX 0 < 2) ∧ ((loaded 4 0 0 0).getX 0 % 2 = 0 ∧ (loaded 4 0 0 0).getX 0 ≠ 2) ∧
    (¬ Nat.Prime ((loaded 9 0 0 0).getX 0) ∧ 1 ≤ ({ loaded 9 0 0 0 with iter := 2 } : State).trialCount ∧
      ({ loaded 9 0 0 0 with iter := 2 } : State).trialCount ≤ bench.pace) := by
  refine ⟨⟨?_, by decide⟩, by decide, by decide, ?_, by decide⟩
  · rw [show (loaded 5 0 0 0).getX 0 = 5 by decide]; norm_num
  · rw [show (loaded 9 0 0 0).getX 0 = 9 by decide]; norm_num

/-- One command not begun, one begun, the latter at a pace of 0. -/
theorem witness_IsprimeAlwaysEnds :
    ((bench.accept 0x42000000#32).Inv ∧ Spec.NothingPlanned (bench.accept 0x42000000#32) ∧
      (bench.accept 0x42000000#32).phase = .fresh ∧ decode (bench.accept 0x42000000#32).cmd = .ok (.isprime 1 0) ∧
      (bench.accept 0x42000000#32).source.ready = true) ∧
    (State.Inv { begunBench with pace := 0 } ∧ Spec.NothingPlanned { begunBench with pace := 0 } ∧
      begunBench.busy = true ∧ begunBench.phase ≠ .stranded ∧ begunBench.phase ≠ .fresh ∧
      decode begunBench.cmd = .ok (.isprime 1 0)) := by
  refine ⟨⟨issued_inv 0x42000000#32 0 [], ⟨rfl, rfl⟩, rfl, by decide, rfl⟩, begunBench_inv, ⟨rfl, rfl⟩, rfl, ?_⟩
  decide

/-- `RandBits(1)` answered 1: the loop ends at once with 3. -/
theorem witness_GenRun (T : Nat) : ∃ src, Spec.GenRun 1 T { ready := true, seed := 0, answers := [1], log := [] } 3 src ∧ src.log.length = 1 := by
  refine ⟨_, .accepted (bits := 1) _ (Source.draw { ready := true, seed := 0, answers := [1], log := [] } (.bits 1)).2 ?_ ?_, rfl⟩
  · decide
  · exact ⟨rfl, rfl⟩

theorem witness_GenprimeResult :
    ((0#16).toNat = 0 ∧ Spec.opw bench < (64#16).toNat + 1) ∧
    (1 ≤ (1#16).toNat ∧ (63#16).toNat + 1 ≤ Spec.opw bench ∧ (notReady 0x50000001#32).source.ready = false) ∧
    ((issued bench 0x50000001#32 1 [1]).phase = .fresh ∧ (issued bench 0x50000001#32 1 [1]).source.ready = true ∧
      (issued bench 0x50000001#32 1 [1]).source = { ready := true, seed := 0, answers := [1], log := [] } ∧ 1 ≤ 0 + bench.pace) ∧
    0x5E00FFFF#32 &&& 0xF1FF0000#32 = 0x50000000#32 := by decide

theorem witness_GenprimeAcceptsPrime :
    1 ≤ (2#16).toNat ∧ (2#16).toNat + 1 ≤ Spec.opw bench ∧ (issued bench 0x50000002#32 1 [1]).source.answers = [1] ∧
    1 < 2 ^ (2#16).toNat ∧ 1 % 2 = 1 ∧ Nat.Prime (1 + 2 ^ (2#16).toNat) ∧
    (issued bench 0x50000002#32 1 [1]).trialCount + 1 ≤ (issued bench 0x50000002#32 1 [1]).pace := by
  refine ⟨by decide, by decide, by decide, by decide, by decide, ?_, by decide⟩
  rw [show 1 + 2 ^ (2#16).toNat = 5 by decide]; norm_num

theorem witness_GenprimeCanRunForever :
    (issued bench 0x50000002#32 1 [2]).phase = .fresh ∧ (issued bench 0x50000002#32 1 [2]).source.ready = true ∧
    (issued bench 0x50000002#32 1 [2]).source.answers.length = (issued bench 0x50000002#32 1 [2]).pace ∧
    (∀ a ∈ (issued bench 0x50000002#32 1 [2]).source.answers, a % 2 = 0) := by decide

theorem witness_GenprimeShape :
    (issued bench 0x50000001#32 1 [1]).Inv ∧ (issued bench 0x50000001#32 1 [1]).busy = true ∧
    Spec.EngineMoves (issued bench 0x50000001#32 1 [1]) ∧
    decode (issued bench 0x50000001#32 1 [1]).cmd = .ok (.genprime 0 1) ∧
    after (step (issued bench 0x50000001#32 1 [1])) (fun t => (t.busy, t.err, t.getX 0)) = some (false, 0#4, 3) :=
  ⟨issued_inv _ _ _, rfl, .inr ⟨1, _, .inl ⟨[], rfl, rfl⟩⟩, by decide, by decide⟩

/-- V5 row 1 in turns of three draws and of four. -/
theorem witness_TurnsCompose :
    after (exec (.genprime 0 4) { issued bench 0x50000004#32 0 [6, 9, 5, 0, 13, 0, 25] with iter := 3, pace := 3 })
      (fun t => t.busy) = some true ∧
    after (exec (.genprime 0 4) { issued bench 0x50000004#32 0 [6, 9, 5, 0, 13, 0, 25] with iter := 3, pace := 3 + 4 })
      (fun t => (t.busy, t.getX 0)) = some (false, 29) := by decide

/-- A tear-down and a reseed under a begun command; a stranded command, with the engine's turn, a host's write and a reset next. -/
theorem witness_LostSourceStrandsCommand :
    (Spec.NextTurn (sourced begunBench .teardown) (.source .teardown) (taken (sourced begunBench .teardown)) ∧
      Spec.NextTurn (sourced begunBench (.init 7)) (.source (.init 7)) (taken (sourced begunBench (.init 7))) ∧
      begunBench.phase = .begun (some { n := 25, left := 2 })) ∧
    (State.Inv { begunBench with phase := .stranded } ∧ Spec.EngineMoves { begunBench with phase := .stranded } ∧
      step { begunBench with phase := .stranded } = .fault .drawUnanswered ∧
      after (step (hosted { begunBench with phase := .stranded } (.write 2 1#32))) (fun t => t.phase) = some .stranded) ∧
    Spec.ResetTaken (hosted { begunBench with phase := .stranded } .reset) := by
  refine ⟨⟨sourced_next _ _, sourced_next _ _, rfl⟩, ⟨⟨begunBench_inv.1, begunBench_inv.2.1, rfl, .inl ⟨1, 0, ?_⟩⟩, ?_, rfl, ?_⟩, ?_⟩
  · decide
  · exact .inl ⟨rfl, rfl⟩
  · decide
  · exact ⟨_, hosted_next _ _⟩

/-- A turn of each command that answers a next state. -/
theorem witness_CommandFrame :
    after (exec (.gcd 2 0 1) (loaded 48 18 0 0)) (fun t => t.getX 2) = some 6 ∧
    after (exec (.modinv 2 0 1) (loaded 3 7 0 0)) (fun t => t.getX 2) = some 5 ∧
    after (exec (.powmod 0 1 2 3) (loaded 0 2 10 1000)) (fun t => t.getX 0) = some 24 ∧
    after (exec (.isprime 1 0) (loaded 2 0 0 0)) (fun t => t.getX 1) = some 1 ∧
    after (exec (.genprime 0 1) (issued bench 0x50000001#32 1 [1])) (fun t => t.getX 0) = some 3 := by decide

/-- Two states that agree on the sources of `gcd x2, x0, x1` and differ elsewhere. -/
theorem witness_CommandReadsOnlySources :
    (∀ r ∈ Spec.readsOf (.gcd 2 0 1), (loaded 48 18 0 99).x.get r = (loaded 48 18 0 0).x.get r) ∧
    (loaded 48 18 0 99).x ≠ (loaded 48 18 0 0).x := by decide

theorem witness_NothingChangesWhileBusy :
    (hosted (bench.accept 0x10000000#32) (.write 2 1#32)).busy = true ∧
    after (step (hosted (bench.accept 0x10000000#32) (.write 2 1#32))) (fun t => (t.busy, t.wrerr)) = some (true, true) := by
  decide

/-- One step for each piece of state: a limb, `ITER`, `BUSY`, `NOINV`, `WRERR` set and cleared, `ERR`, `cmd`. -/
theorem witness_WhoWritesWhat :
    after (step (hosted bench (.write 0x400 7#32))) (fun t => t.getX 0) = some 7 ∧
    after (step (hosted bench (.write 2 9#32))) (fun t => t.iter) = some 9#32 ∧
    after (step (hosted bench (.write 0 5#32))) (fun t => (t.busy, t.cmd)) = some (true, 5#32) ∧
    after (step (issued (loaded 4 8 0 0) 0x24080000#32 0 [])) (fun t => (t.noinv, t.done)) = some (true, true) ∧
    after (step (hosted (bench.accept 0#32) (.write 2 9#32))) (fun t => t.wrerr) = some true ∧
    after (step (hosted bench.dropWrite (.write 1 8#32))) (fun t => t.wrerr) = some false ∧
    after (step (issued bench 0#32 0 [])) (fun t => t.err) = some 1#4 := by decide

theorem witness_CompletionIsOneStep :
    (issued bench 0x10000000#32 0 []).busy = true ∧
    after (step (issued bench 0x10000000#32 0 [])) (fun t => (t.busy, t.err)) = some (false, 0#4) ∧
    after (step (issued bench 0x24080000#32 0 [])) (fun t => (t.busy, t.err)) = some (false, 2#4) ∧
    ¬ Spec.ResetTaken (issued bench 0x10000000#32 0 []) := by
  refine ⟨by decide, by decide, by decide, ?_⟩
  rintro ⟨s', ⟨rest, h, -⟩ | ⟨h, -⟩⟩ <;> cases h

theorem witness_NoinvOnlyByModinv :
    after (step (issued (loaded 4 8 0 0) 0x24080000#32 0 [])) (fun t => t.noinv) = some true ∧
    after (exec (.modinv 2 0 1) { loaded 3 7 0 0 with noinv := true }) (fun t => t.noinv) = some false ∧
    (loaded 3 7 0 0).getX 1 ≠ 0 := by decide

theorem witness_FaultsArePrecise :
    Spec.EngineRuns (issued bench 0x24080000#32 0 []) { taken (issued bench 0x24080000#32 0 []) with pace := 0 } ∧
    (issued bench 0x24080000#32 0 []).err = 0 ∧
    after (step (issued bench 0x24080000#32 0 [])) (fun t => t.err) = some 2#4 := ⟨issued_runs _ _ _ _, rfl, by decide⟩

/-- The error code after the engine's turn on a fresh command. -/
def faultOf (s : State) : Option (BitVec 4) := after (step s) (fun t => t.err)

/-- One state per code: no fault, ILLEGAL, DIVZERO (twice), RANGE. -/
theorem witness_FaultConditions :
    faultOf (issued bench 0x10000000#32 0 []) = some 0#4 ∧ faultOf (issued bench 0x60000000#32 0 []) = some 1#4 ∧
    faultOf (issued bench 0x24080000#32 0 []) = some 2#4 ∧ faultOf (issued bench 0x30530000#32 0 []) = some 2#4 ∧
    faultOf (issued bench 0x50000040#32 0 []) = some 3#4 := by decide

/-- RNGNRDY, for either command that draws. -/
theorem witness_FaultConditions_notReady :
    faultOf (notReady 0x42000000#32) = some 4#4 ∧ faultOf (notReady 0x5000003F#32) = some 4#4 := by decide

/-- An `ISPRIME` of 25 that has begun, with two trials to run, meets the invariant. -/
theorem witness_FaultConditions_begun :
    State.Inv { begunBench with schedule := [.engine 1] } ∧
    Spec.EngineRuns { begunBench with schedule := [.engine 1] } { begunBench with pace := 1 } ∧
    begunBench.phase = .begun (some ⟨25, 2⟩) :=
  ⟨begunBench_inv, ⟨rfl, .inl ⟨1, _, .inl ⟨[], rfl, rfl⟩, rfl⟩⟩, rfl⟩

/-- These states meet the hypotheses. -/
theorem witness_FaultConditions_hypotheses (w : Word) :
    (Spec.EngineRuns (issued bench w 0 []) { taken (issued bench w 0 []) with pace := 0 } ∧
      (issued bench w 0 []).phase = .fresh ∧ (issued bench w 0 []).err = 0) ∧
    Spec.EngineRuns (notReady w) { taken (notReady w) with pace := 0 } ∧ (notReady w).phase = .fresh ∧ (notReady w).err = 0 :=
  ⟨⟨issued_runs _ _ _ _, rfl, rfl⟩, ⟨rfl, .inl ⟨0, _, .inl ⟨[], rfl, rfl⟩, rfl⟩⟩, rfl, rfl⟩

/-- A step of each branch: a fault, and a completion without one. -/
theorem witness_FaultRecord :
    after (step (issued bench 0x60000000#32 0 [])) (fun t => (t.busy, t.err, t.faults)) = some (false, 1#4, [.illegal]) ∧
    after (step (issued bench 0x10000000#32 0 [])) (fun t => (t.busy, t.err, t.faults)) = some (false, 0#4, []) := by decide

theorem witness_StepKeepsInvariant :
    (issued bench 0x50000004#32 2 [9, 0]).Inv ∧
    after (step (issued bench 0x50000004#32 2 [9, 0])) (fun t => t.getX 0) = some 25 := ⟨issued_inv _ _ _, by decide⟩

theorem witness_ParametersAndSourceKept :
    Spec.NextTurn (hosted bench .reset) (.host .reset) (taken (hosted bench .reset)) ∧
    after (step (issued bench 0x50000001#32 1 [1, 8])) (fun t => (t.source.log.length, t.source.answers)) = some (1, [8]) :=
  ⟨hosted_next _ _, by decide⟩

end Sys2Proof.Tests
end

section
/-! SUPPORT. What a command depends on (spec/10_state.md R22, R25): two states that agree on a command's inputs take its turn in
the same way. -/

namespace Sys2Proof.Machine

/-- The states agree on all that an engine turn of the command reads: its source registers, `ITER` and the parameters, and what
carries a command that draws on. -/
structure SameInputs (i : Instr) (s s' : State) : Prop where
  getX   : ∀ r ∈ Spec.readsOf i, s'.getX r = s.getX r
  iter   : s'.iter = s.iter
  params : s'.params = s.params
  phase  : s'.phase = s.phase
  source : s'.source = s.source
  pace   : s'.pace = s.pace

theorem SameInputs.trialCount {i : Instr} {s s' : State} (h : SameInputs i s s') : s'.trialCount = s.trialCount := by
  simp only [State.trialCount, h.iter, h.params]

/-- The outcomes of one engine turn from `s` and from `s'` are the same fault, or the same update of each. -/
inductive SameCourse (rd : Reg) (s s' : State) :
    Host.Outcome State Fault Refusal → Host.Outcome State Fault Refusal → Prop where
  | stop (f : Fault) : SameCourse rd s s' (.fault f) (.fault f)
  | raise (f : FaultCode) : SameCourse rd s s' (.next (s.raise f)) (.next (s'.raise f))
  | complete (src : Source) (v : Nat) :
      SameCourse rd s s' (.next ({ s with source := src }.complete rd v)) (.next ({ s' with source := src }.complete rd v))
  | completeFlag (v : Nat) (b : Bool) :
      SameCourse rd s s' (.next (s.completeFlag rd v b)) (.next (s'.completeFlag rd v b))
  | pause (src : Source) (test : Option Trials) :
      SameCourse rd s s' (.next { s with source := src, phase := .begun test })
        (.next { s' with source := src, phase := .begun test })

/-- A completion that leaves the source alone. -/
theorem SameCourse.complete_of_source_eq {rd : Reg} {s s' : State} (h : s'.source = s.source) (v : Nat) :
    SameCourse rd s s' (.next (s.complete rd v)) (.next (s'.complete rd v)) := by
  have hs' : ({ s' with source := s.source } : State) = s' := by rw [← h]
  exact hs' ▸ .complete s.source v

/-- One turn of a command that draws, from states with the same source and the same number of draws to make. -/
theorem pursue_sameCourse (next : Option Trials → Source → Progress × Source) (p : Progress) (rd : Reg) {s s' : State}
    (hsrc : s'.source = s.source) (hpace : s'.pace = s.pace) :
    SameCourse rd s s' (pursue next p rd s) (pursue next p rd s') := by
  obtain ⟨hr, he⟩ | ⟨hr, v, src, hd, he⟩ | ⟨hr, t, src, hd, he⟩ := pursue_cases next p rd s <;>
    rw [← hsrc] at hr <;> rw [he]
  · rw [pursue, if_pos hr]
    exact .stop _
  · rw [← hpace, ← hsrc] at hd
    rw [pursue_finished next p rd s' v src hr hd]
    exact .complete src v
  · rw [← hpace, ← hsrc] at hd
    rw [pursue_running next p rd s' t src hr hd]
    exact .pause src t

theorem execIsprime_sameCourse (rd rs1 : Reg) {s s' : State} (h : SameInputs (.isprime rd rs1) s s') :
    SameCourse rd s s' (exec (.isprime rd rs1) s) (exec (.isprime rd rs1) s') := by
  have hx : s'.getX rs1 = s.getX rs1 := h.getX rs1 (by simp [Spec.readsOf])
  cases hp : s.phase with
  | fresh =>
    have hp' := h.phase.trans hp
    cases hr : s.source.ready with
    | false =>
      rw [execIsprime_notReady rd rs1 s hp hr, execIsprime_notReady rd rs1 s' hp' (h.source ▸ hr)]
      exact .raise _
    | true =>
      rw [execIsprime_fresh rd rs1 s hp hr, execIsprime_fresh rd rs1 s' hp' (h.source ▸ hr), hx, h.trialCount]
      exact pursue_sameCourse _ _ rd h.source h.pace
  | begun t =>
    rw [execIsprime_begun rd rs1 s t hp, execIsprime_begun rd rs1 s' t (h.phase.trans hp), hx, h.trialCount]
    exact pursue_sameCourse _ _ rd h.source h.pace
  | stranded =>
    simp only [exec, execIsprime, hp, h.phase]
    exact .stop _

theorem execGenprime_sameCourse (rd : Reg) (bits : BitVec 16) {s s' : State} (h : SameInputs (.genprime rd bits) s s') :
    SameCourse rd s s' (exec (.genprime rd bits) s) (exec (.genprime rd bits) s') := by
  cases hp : s.phase with
  | fresh =>
    have hp' := h.phase.trans hp
    by_cases hb : bits.toNat = 0 ∨ s.params.opw < bits.toNat + 1
    · rw [execGenprime_range rd bits s hp hb, execGenprime_range rd bits s' hp' (h.params ▸ hb)]
      exact .raise _
    · cases hr : s.source.ready with
      | false =>
        rw [execGenprime_notReady rd bits s hp hb hr, execGenprime_notReady rd bits s' hp' (h.params ▸ hb) (h.source ▸ hr)]
        exact .raise _
      | true =>
        rw [execGenprime_fresh rd bits s hp hb hr, execGenprime_fresh rd bits s' hp' (h.params ▸ hb) (h.source ▸ hr),
          h.trialCount]
        exact pursue_sameCourse _ _ rd h.source h.pace
  | begun t =>
    rw [execGenprime_begun rd bits s t hp, execGenprime_begun rd bits s' t (h.phase.trans hp), h.trialCount]
    exact pursue_sameCourse _ _ rd h.source h.pace
  | stranded =>
    simp only [exec, execGenprime, hp, h.phase]
    exact .stop _

/-- A command takes the same course from states that agree on its inputs (10_state R22). -/
theorem exec_sameCourse (i : Instr) {s s' : State} (h : SameInputs i s s') :
    SameCourse (Spec.writes i) s s' (exec i s) (exec i s') := by
  have hx := h.getX
  cases i with
  | gcd rd rs1 rs2 =>
    simp only [Spec.readsOf, List.forall_mem_cons] at hx
    simp only [exec, execGcd, hx]
    exact .complete_of_source_eq h.source _
  | modinv rd rs1 rs2 =>
    simp only [Spec.readsOf, List.forall_mem_cons] at hx
    simp only [exec, execModinv, hx]
    split
    · exact .raise _
    · exact .completeFlag _ _
  | powmod rd rs1 rs2 rs3 =>
    simp only [Spec.readsOf, List.forall_mem_cons] at hx
    simp only [exec, execPowmod, hx]
    split
    · exact .raise _
    · exact .complete_of_source_eq h.source _
  | isprime rd rs1 => exact execIsprime_sameCourse rd rs1 h
  | genprime rd bits => exact execGenprime_sameCourse rd bits h

end Sys2Proof.Machine
end

section
/-! SUPPORT. The words the model puts together from fields (spec/10_state.md R29, 30_encoding.md R71): the value of a word, and a
word under a mask, field by field. -/

namespace Sys2Proof

theorem toNat_append_eq_add {m n : Nat} (a : BitVec m) (b : BitVec n) : (a ++ b).toNat = a.toNat * 2 ^ n + b.toNat := by
  rw [BitVec.toNat_append, ← Nat.shiftLeft_add_eq_or_of_lt b.isLt, Nat.shiftLeft_eq]

/-- The six fields under the six fields of a mask. -/
def Fields.masked (f m : Fields) : Fields :=
  { opcode := f.opcode &&& m.opcode, rd := f.rd &&& m.rd, rs1 := f.rs1 &&& m.rs1, rs2 := f.rs2 &&& m.rs2,
    rs3 := f.rs3 &&& m.rs3, imm16 := f.imm16 &&& m.imm16 }

theorem append_and_append {m n : Nat} {a b c : BitVec m} (a' b' : BitVec n) (h : a &&& b = c) :
    (a ++ a') &&& (b ++ b') = c ++ (a' &&& b') := by rw [BitVec.and_append, h]

theorem pack_and_pack (f m : Fields) : pack f &&& pack m = pack (f.masked m) :=
  append_and_append _ _ <| append_and_append _ _ <| append_and_append _ _ <| append_and_append _ _ BitVec.and_append

theorem pack_unpack (w : Word) : pack (unpack w) = w := by
  have join := @BitVec.extractLsb'_append_extractLsb'_eq_extractLsb' 32
  simp only [pack, unpack, join, Nat.reduceAdd, BitVec.extractLsb'_eq_self]

/-- A word under a mask is read off its fields. -/
theorem word_and_mask {w : Word} {m g : Fields} (h : (unpack w).masked m = g) : w &&& pack m = pack g := by
  rw [← h, ← pack_and_pack, pack_unpack]

/-- Which fields the decoder takes for a command (30_encoding R73). -/
theorem decodeFields_cases {f : Fields} {i : Instr} (h : decodeFields f = .ok i) :
    (f.opcode = 1 ∧ f.rs3 = 0 ∧ f.imm16 = 0 ∧ i = .gcd (selector f.rd) (selector f.rs1) (selector f.rs2)) ∨
    (f.opcode = 2 ∧ f.rs3 = 0 ∧ f.imm16 = 0 ∧ i = .modinv (selector f.rd) (selector f.rs1) (selector f.rs2)) ∨
    (f.opcode = 3 ∧ f.imm16 = 0 ∧
      i = .powmod (selector f.rd) (selector f.rs1) (selector f.rs2) (selector f.rs3)) ∨
    (f.opcode = 4 ∧ f.rs2 = 0 ∧ f.rs3 = 0 ∧ f.imm16 = 0 ∧ i = .isprime (selector f.rd) (selector f.rs1)) ∨
    (f.opcode = 5 ∧ f.rs1 = 0 ∧ f.rs2 = 0 ∧ f.rs3 = 0 ∧ i = .genprime (selector f.rd) f.imm16) := by
  have hop : ∀ k : Nat, f.opcode.toNat = k → f.opcode = BitVec.ofNat 4 k := fun k hk => by simp [← hk]
  unfold decodeFields at h
  split at h
  case h_6 => cases h
  all_goals
    rename_i hk
    split_ifs at h
    cases h
    simp_all [hop _ hk]

/-- A word that decodes lies in a row of the table (30_encoding R73). -/
theorem not_noRow_of_decode {w : Word} {i : Instr} (h : decode w = .ok i) : ¬ Spec.NoRow w := by
  rintro ⟨h1, h2, h3, h4, h5⟩
  obtain ⟨ho, hc, hi, -⟩ | ⟨ho, hc, hi, -⟩ | ⟨ho, hi, -⟩ | ⟨ho, hb, hc, hi, -⟩ | ⟨ho, ha, hb, hc, -⟩ := decodeFields_cases h
  · exact h1 (word_and_mask (m := ⟨15, 0, 0, 0, 7, 65535⟩) (g := ⟨1, 0, 0, 0, 0, 0⟩) (by simp [Fields.masked, ho, hc, hi]))
  · exact h2 (word_and_mask (m := ⟨15, 0, 0, 0, 7, 65535⟩) (g := ⟨2, 0, 0, 0, 0, 0⟩) (by simp [Fields.masked, ho, hc, hi]))
  · exact h3 (word_and_mask (m := ⟨15, 0, 0, 0, 0, 65535⟩) (g := ⟨3, 0, 0, 0, 0, 0⟩) (by simp [Fields.masked, ho, hi]))
  · exact h4 (word_and_mask (m := ⟨15, 0, 0, 7, 7, 65535⟩) (g := ⟨4, 0, 0, 0, 0, 0⟩) (by simp [Fields.masked, ho, hb, hc, hi]))
  · exact h5 (word_and_mask (m := ⟨15, 0, 7, 7, 7, 0⟩) (g := ⟨5, 0, 0, 0, 0, 0⟩) (by simp [Fields.masked, ho, ha, hb, hc]))

/-- No row, no command (30_encoding R75). -/
theorem decode_error_of_noRow {w : Word} (h : Spec.NoRow w) : ∃ e, decode w = .error e := by
  cases hd : decode w with
  | error e => exact ⟨e, rfl⟩
  | ok i => exact absurd h (not_noRow_of_decode hd)

end Sys2Proof

namespace Sys2Proof.Machine

/-- The value of the `PARAM` word (10_state R29). -/
theorem Params.word_toNat (s : State) : (Params.word s.params).toNat = Spec.paramValue s := by
  have hl := s.params.limbsAboveTwo.isLt
  have ho := s.params.trialOffset.isLt
  simp only [Params.word, toNat_append_eq_add, BitVec.toNat_ofNat, Params.limbs, Spec.paramValue, Spec.limbs]
  omega

end Sys2Proof.Machine
end

section
/-! SUPPORT. The step, by who moves (spec/00_scope.md R6), and what it does to the parameters and to `NOINV`. -/

namespace Sys2Proof.Machine

/-- Taking the next turn off changes the plan and nothing else. -/
theorem specNextTurn_state {s s' : State} {turn : Turn} (h : Spec.NextTurn s turn s') :
    ∃ sched e, s' = { s with schedule := sched, endless := e } := nextTurn_state (nextTurn_some.2 h)

theorem hostWriteNext_state {s s' : State} {off : Nat} {v : Word} (h : Spec.HostWriteNext s off v s') :
    ∃ sched e, s' = { s with schedule := sched, endless := e } := by
  obtain ⟨hn, -, -⟩ := h
  exact specNextTurn_state hn

theorem step_of_specNextTurn {s s' : State} {turn : Turn} (h : Spec.NextTurn s turn s') : step s = takeTurn turn s' :=
  step_of_turn (nextTurn_some.2 h)

theorem step_of_hostWrite {s s' : State} {off : Nat} {v : Word} {l : Location} (h : Spec.HostWriteNext s off v s')
    (hl : locate (off / 4) = some l) : step s = .next (s'.writeAt v l) := by
  obtain ⟨hn, -, -⟩ := h
  simp only [step_of_specNextTurn hn, takeTurn, hostTurn, hl]

theorem step_of_hostRead {s s' : State} {index : Nat} {l : Location} (h : Spec.NextTurn s (.host (.read index)) s')
    (hl : locate index = some l) : step s = .next { s' with reads := s'.readAt l :: s'.reads } := by
  simp only [step_of_specNextTurn h, takeTurn, hostTurn, hl]

theorem run_succ_of_step {s t : State} (k : Nat) (h : step s = .next t) :
    Host.Core.run Sys2Proof.core (k + 1) s = Host.Core.run Sys2Proof.core k t := by
  have hs : Sys2Proof.core.step s = .next t := h
  simp only [Host.Core.run, hs]

theorem run_two {s u t : State} (hs : step s = .next u) (hu : step u = .next t) :
    Host.Core.run Sys2Proof.core 2 s = .next t := by
  rw [run_succ_of_step 1 hs, run_succ_of_step 0 hu]
  rfl

/-- A host write reaches neither the parameters nor `NOINV` (20_memory R54, R55). -/
theorem writeAt_keeps (s : State) (v : Word) (l : Location) :
    (s.writeAt v l).params = s.params ∧ (s.writeAt v l).noinv = s.noinv := by
  obtain ⟨-, h⟩ | ⟨-, -, h⟩ | ⟨-, -, h⟩ | ⟨-, -, h⟩ | ⟨i, j, -, -, -, h⟩ | ⟨-, -, h⟩ := writeAt_cases s v l <;>
    rw [h] <;> exact ⟨rfl, rfl⟩

/-- No host access and no reset changes the parameters (10_state R29, R43). -/
theorem hostTurn_params {a : HostAction} {s t : State} (h : hostTurn a s = .next t) : t.params = s.params := by
  obtain ⟨-, rfl⟩ | ⟨index, l, -, -, rfl⟩ | ⟨index, v, l, -, -, rfl⟩ := hostTurn_cases h
  · rfl
  · rfl
  · exact (writeAt_keeps s v l).left

theorem exec_params {i : Instr} {s t : State} (h : exec i s = .next t) : t.params = s.params := by
  obtain ⟨src, v, -, rfl⟩ | ⟨rd, rs1, rs2, -, -, rfl⟩ | ⟨f, -, rfl⟩ | ⟨src, test, -, -, rfl⟩ := exec_cases h <;> rfl

theorem engineTurn_params {s t : State} (h : engineTurn s = .next t) : t.params = s.params := by
  obtain ⟨-, rfl⟩ | ⟨-, e, -, rfl⟩ | ⟨-, i, -, hi⟩ := engineTurn_cases h
  · rfl
  · rfl
  · exact exec_params hi

/-- No step changes the parameters (00_scope R5). -/
theorem step_params {s t : State} (h : step s = .next t) : t.params = s.params := by
  have hkeep {turn : Turn} {s' : State} (hn : s.nextTurn = some (turn, s')) : s'.params = s.params := by
    obtain ⟨sched, e, rfl⟩ := nextTurn_state hn
    rfl
  obtain ⟨-, -, rfl⟩ | ⟨-, -, he⟩ | ⟨a, s', hn, ha⟩ | ⟨k, s', hn, he⟩ | ⟨a, s', hn, rfl⟩ := step_cases h
  · rfl
  · exact (engineTurn_params he).trans rfl
  · exact (hostTurn_params ha).trans (hkeep hn)
  · exact (engineTurn_params he).trans (hkeep hn :)
  · exact (sourceTurn_params a s').trans (hkeep hn)

/-- Of the host's actions only a reset writes `NOINV` (10_state R25). -/
theorem hostTurn_noinv {a : HostAction} {s t : State} (h : hostTurn a s = .next t) :
    t.noinv = s.noinv ∨ (a = .reset ∧ t.noinv = false) := by
  obtain ⟨rfl, rfl⟩ | ⟨index, l, -, -, rfl⟩ | ⟨index, v, l, -, -, rfl⟩ := hostTurn_cases h
  · exact .inr ⟨rfl, rfl⟩
  · exact .inl rfl
  · exact .inl (writeAt_keeps s v l).right

end Sys2Proof.Machine
end

section
/-! SUPPORT. The flag of `MODINV` (spec/41_modinv.md R96, 10_state.md R25). -/

namespace Sys2Proof.Machine

/-- The loop of 41_modinv R98 ends with the greatest common divisor. -/
theorem extEuclid_fst (fuel r0 r1 : Nat) (t0 t1 : Int) (h : r1 < fuel) :
    (extEuclid fuel r0 r1 t0 t1).1 = Nat.gcd r0 r1 := by
  induction fuel generalizing r0 r1 t0 t1 with
  | zero => omega
  | succ fuel ih =>
    unfold extEuclid
    split
    case isTrue hz => simp [hz]
    case isFalse hnz =>
      have hrem : r0 - r0 / r1 * r1 = r0 % r1 := Nat.mod_eq_sub_div_mul.symm
      have hlt : r0 % r1 < r1 := Nat.mod_lt _ (by omega)
      dsimp only
      rw [hrem, ih r1 (r0 % r1) t1 _ (by omega), Nat.gcd_comm r1, ← Nat.gcd_rec, Nat.gcd_comm]

theorem modinvResult_flag (a n : Nat) : (modinvResult a n).2 = true ↔ 1 < Nat.gcd a n := by
  have hg : (extEuclid (a + 1) n a 0 1).1 = Nat.gcd a n := by
    rw [extEuclid_fst _ _ _ _ _ (by omega), Nat.gcd_comm]
  simp only [modinvResult, hg]
  split <;> simp [*]

/-- A `MODINV` with a nonzero modulus completes, with its flag (41_modinv R96). -/
theorem execModinv_of_ne_zero (rd rs1 rs2 : Reg) (s : State) (h : s.getX rs2 ≠ 0) :
    exec (.modinv rd rs1 rs2) s = .next
      (s.completeFlag rd (modinvResult (s.getX rs1) (s.getX rs2)).1 (modinvResult (s.getX rs1) (s.getX rs2)).2) := by
  simp only [exec, execModinv, if_neg h]

/-- What can write `NOINV` (10_state R25): the engine, as it ends a `MODINV` with a nonzero modulus without a fault, and then to 1
exactly for a common divisor above 1. -/
def NoinvWritten (s t : State) : Prop :=
  ∃ rd rs1 rs2, s.busy = true ∧ decode s.cmd = .ok (.modinv rd rs1 rs2) ∧ s.getX rs2 ≠ 0 ∧ t.busy = false ∧ t.err = 0 ∧
    (t.noinv = true ↔ 1 < Nat.gcd (s.getX rs1) (s.getX rs2))

theorem engineTurn_noinv {s t : State} (h : engineTurn s = .next t) : t.noinv = s.noinv ∨ NoinvWritten s t := by
  obtain ⟨-, rfl⟩ | ⟨-, e, -, rfl⟩ | ⟨hb, i, hd, hi⟩ := engineTurn_cases h
  · exact .inl rfl
  · exact .inl rfl
  · obtain ⟨src, v, -, rfl⟩ | ⟨rd, rs1, rs2, rfl, hm, rfl⟩ | ⟨f, -, rfl⟩ | ⟨src, test, -, -, rfl⟩ := exec_cases hi
    · exact .inl rfl
    · exact .inr ⟨rd, rs1, rs2, hb, hd, hm, rfl, rfl, modinvResult_flag _ _⟩
    · exact .inl rfl
    · exact .inl rfl

theorem step_noinv {s t : State} (h : step s = .next t) :
    t.noinv = s.noinv ∨ (Spec.ResetTaken s ∧ t.noinv = false) ∨ (Spec.EngineMoves s ∧ NoinvWritten s t) := by
  obtain ⟨-, -, rfl⟩ | ⟨hn, -, he⟩ | ⟨a, s', hn, ha⟩ | ⟨k, s', hn, he⟩ | ⟨a, s', hn, rfl⟩ := step_cases h
  · exact .inl rfl
  · exact (engineTurn_noinv he).imp_right fun hw => .inr ⟨.inl (nextTurn_none.1 hn), hw⟩
  · obtain ⟨sched, e, rfl⟩ := nextTurn_state hn
    exact (hostTurn_noinv ha).imp_right fun ⟨hreset, hz⟩ => .inl ⟨⟨_, nextTurn_some.1 (hreset ▸ hn)⟩, hz⟩
  · obtain ⟨sched, e, rfl⟩ := nextTurn_state hn
    exact (engineTurn_noinv he).imp_right fun hw => .inr ⟨.inr ⟨k, _, nextTurn_some.1 hn⟩, hw⟩
  · obtain ⟨sched, e, rfl⟩ := nextTurn_state hn
    exact .inl rfl

end Sys2Proof.Machine
end

section
/-! SUPPORT. The proofs of the state's own statements (spec/10_state.md R22, R25, R29, R31). -/

namespace Sys2Proof.Machine

theorem destination_eq_writes (i : Instr) : destination i = Spec.writes i := by cases i <;> rfl

/-- A turn writes no register, or completes without a fault and writes the destination (10_state R22). -/
theorem exec_writes {i : Instr} {s t : State} (h : exec i s = .next t) :
    t.x = s.x ∨
      (t.busy = false ∧ t.done = true ∧ t.err = 0 ∧ ∃ v, t.x = s.x.set (Spec.writes i).val v (Spec.writes i).isLt) := by
  obtain ⟨src, v, -, rfl⟩ | ⟨rd, rs1, rs2, rfl, -, rfl⟩ | ⟨f, -, rfl⟩ | ⟨src, test, -, -, rfl⟩ := exec_cases h
  · rw [destination_eq_writes]
    exact .inr ⟨rfl, rfl, rfl, v, rfl⟩
  · exact .inr ⟨rfl, rfl, rfl, _, rfl⟩
  · exact .inl rfl
  · exact .inl rfl

/-- Settles O46: a turn by its cases, and the same course from states that agree on the sources. -/
theorem commandReadsOnlySources : Obligations.CommandReadsOnlySources := by
  unfold Obligations.CommandReadsOnlySources
  refine ⟨fun i s t => exec_writes, fun i s x' hx => ?_⟩
  have course : SameCourse _ s { s with x := x' } (exec i s) (exec i { s with x := x' }) :=
    exec_sameCourse i ⟨hx, rfl, rfl, rfl, rfl, rfl⟩
  generalize exec i { s with x := x' } = o' at course ⊢
  constructor
  · intro f hf
    rw [hf] at course
    cases course
    rfl
  · intro t ht
    rw [ht] at course
    cases course with
    | raise f => exact ⟨_, rfl, rfl, .inl ⟨rfl, rfl⟩⟩
    | complete src v => exact ⟨_, rfl, rfl, .inr (by simp [State.getX_complete])⟩
    | completeFlag v b => exact ⟨_, rfl, rfl, .inr (by simp [State.getX_completeFlag])⟩
    | pause src test => exact ⟨_, rfl, rfl, .inl ⟨rfl, rfl⟩⟩

/-- A command goes the same way whatever `NOINV` is (10_state R25). -/
theorem exec_with_noinv {i : Instr} {s t : State} (b : Bool) (h : exec i s = .next t) :
    ∃ t', exec i { s with noinv := b } = .next t' ∧ t' = { t with noinv := t'.noinv } := by
  have course : SameCourse _ s { s with noinv := b } (exec i s) (exec i { s with noinv := b }) :=
    exec_sameCourse i ⟨fun _ _ => rfl, rfl, rfl, rfl, rfl, rfl⟩
  rw [h] at course
  generalize exec i { s with noinv := b } = o' at course ⊢
  cases course <;> exact ⟨_, rfl, rfl⟩

/-- Settles O50: every step by who moves, the flag by the greatest common divisor, and the same course whatever `NOINV` is. -/
theorem noinvOnlyByModinv : Obligations.NoinvOnlyByModinv := by
  unfold Obligations.NoinvOnlyByModinv
  refine ⟨fun s t h => ?_, fun rd rs1 rs2 s t h hm => ?_, rfl, fun i s b t => exec_with_noinv b⟩
  · obtain hkeep | hreset | ⟨hmoves, rd, rs1, rs2, hw⟩ := step_noinv h
    · exact .inl hkeep
    · exact .inr (.inl hreset)
    · exact .inr (.inr ⟨rd, rs1, rs2, hmoves, hw⟩)
  · rw [execModinv_of_ne_zero rd rs1 rs2 s hm] at h
    cases h
    exact modinvResult_flag _ _

/-- The accept step (10_state R31). -/
theorem step_accept {s s' : State} {w : Word} (h : Spec.HostWriteNext s 0x0000 w s') (hb : s.busy = false) :
    step s = .next (s'.accept w) := by
  obtain ⟨sched, e, rfl⟩ := hostWriteNext_state h
  rw [step_of_hostWrite h (l := .cmd) rfl]
  simp only [State.writeAt, hb, State.writeIdle, Bool.false_eq_true, if_false]

/-- The engine's turn under a word of no row (30_encoding R75). -/
theorem engineTurn_illegal {s : State} (hb : s.busy = true) (hw : Spec.NoRow s.cmd) :
    engineTurn s = .next (s.raise .illegal) := by
  obtain ⟨e, he⟩ := decode_error_of_noRow hw
  simp only [engineTurn, hb, he, if_true]

/-- The two flags at the bottom of the `STATUS` word (10_state R27). -/
theorem statusWord_busy_done (s : State) : s.statusWord.getLsbD 0 = s.busy ∧ s.statusWord.getLsbD 1 = s.done := by
  simp only [State.statusWord, flagBit, BitVec.getLsbD_append]
  simp

/-- The accept step leaves the plan as it is. -/
theorem nextTurn_accept {s s' : State} {turn : Turn} (w : Word) (h : Spec.NextTurn s turn s') :
    Spec.NextTurn (s.accept w) turn (s'.accept w) := by
  obtain ⟨rest, hs, rfl⟩ | ⟨hs, n, he, ht, rfl⟩ := h
  · exact .inl ⟨rest, hs, rfl⟩
  · exact .inr ⟨hs, n, he, ht, rfl⟩

/-- Settles O10: the accept step, and the turn after it. -/
theorem acceptStep : Obligations.AcceptStep := by
  unfold Obligations.AcceptStep
  refine ⟨fun s s' w h hb => step_accept h hb, fun s s' s'' w k h hk hb hw => ?_, fun s s' s'' w h hr hb => ?_⟩
  · have hturn : step (s'.accept w) = .next (({ s''.accept w with pace := k } : State).raise .illegal) := by
      rw [step_of_specNextTurn (nextTurn_accept w hk), takeTurn, engineTurn_illegal rfl hw]
    refine ⟨_, run_two (step_accept h hb) hturn, rfl, rfl, rfl, ?_⟩
    obtain ⟨sched, e, rfl⟩ := hostWriteNext_state h
    obtain ⟨sched, e, rfl⟩ := specNextTurn_state hk
    rfl
  · have hread := step_of_hostRead (l := .status) (nextTurn_accept w hr) rfl
    obtain ⟨hbusy, hdone⟩ := statusWord_busy_done (s''.accept w)
    refine ⟨_, _, run_two (step_accept h hb) hread, ?_, hbusy, hdone⟩
    obtain ⟨sched, e, rfl⟩ := hostWriteNext_state h
    obtain ⟨sched, e, rfl⟩ := specNextTurn_state hr
    rfl

/-- Settles O17: the value of the word, and no write and no step reaches it. -/
theorem paramWord : Obligations.ParamWord := by
  unfold Obligations.ParamWord
  refine ⟨fun s => ⟨Params.word_toNat s, ?_, ?_, ?_⟩, fun s hopw hoff => ?_, fun s s' v h => ?_, fun s t h => ?_⟩
  · simp only [Spec.limbs]; omega
  · simp only [Spec.limbs]; omega
  · omega
  · refine BitVec.eq_of_toNat_eq ((Params.word_toNat s).trans ?_)
    have hlimbs : Spec.limbs s = 128 := by unfold Spec.opw at hopw; omega
    rw [Spec.paramValue, hlimbs, hoff]
    rfl
  · obtain ⟨sched, e, rfl⟩ := hostWriteNext_state h
    rw [step_of_hostWrite h (l := .param) rfl]
    cases hb : s.busy <;> simp [State.writeAt, State.writeIdle, State.dropWrite]
  · exact congrArg Params.word (step_params h)

end Sys2Proof.Machine
end

section
/-! SUPPORT. The limbs of a wide register (spec/20_memory.md R53, R54, R56): a limb and a replaced limb bit by bit, and a value as
the sum of its limbs. -/

namespace Sys2Proof.Machine

theorem limbOf_toNat (v j : Nat) : (limbOf v j).toNat = v / 2 ^ (32 * j) % 2 ^ 32 := by
  rw [limbOf, BitVec.toNat_ofNat]

theorem getLsbD_limbOf (v j : Nat) {b : Nat} (hb : b < 32) : (limbOf v j).getLsbD b = v.testBit (32 * j + b) := by
  rw [limbOf, BitVec.getLsbD_ofNat, Nat.testBit_div_two_pow, decide_eq_true hb, Bool.true_and, Nat.add_comm]

/-- The model's replacement of a limb is the rule's expression (20_memory R54). -/
theorem withLimb_eq_limbReplaced (v j : Nat) (w : Word) : withLimb v j w = Spec.limbReplaced v j w := by
  rw [withLimb, limbOf_toNat, Spec.limbReplaced]

/-- The value with limb `j` replaced, cut at the two ends of the limb. -/
theorem withLimb_eq_add (v j : Nat) (w : Word) :
    withLimb v j w = 2 ^ (32 * j) * (2 ^ 32 * (v / 2 ^ (32 * j) / 2 ^ 32) + w.toNat) + v % 2 ^ (32 * j) := by
  have cut : v = 2 ^ (32 * j) * (2 ^ 32 * (v / 2 ^ (32 * j) / 2 ^ 32)) + v % 2 ^ (32 * j) +
      (limbOf v j).toNat * 2 ^ (32 * j) := by
    rw [limbOf_toNat, Nat.add_right_comm, Nat.mul_comm (_ % _), ← Nat.mul_add, Nat.div_add_mod, Nat.div_add_mod]
  calc withLimb v j w
      = 2 ^ (32 * j) * (2 ^ 32 * (v / 2 ^ (32 * j) / 2 ^ 32)) + v % 2 ^ (32 * j) + w.toNat * 2 ^ (32 * j) := by
        rw [withLimb, Nat.sub_eq_of_eq_add cut]
    _ = _ := by rw [Nat.add_right_comm, Nat.mul_comm w.toNat, ← Nat.mul_add]

theorem testBit_withLimb (v j : Nat) (w : Word) (b : Nat) :
    (withLimb v j w).testBit b =
      if 32 * j ≤ b ∧ b < 32 * j + 32 then w.getLsbD (b - 32 * j) else v.testBit b := by
  rw [withLimb_eq_add, Nat.testBit_two_pow_mul_add _ (Nat.mod_lt _ (Nat.two_pow_pos _)),
    Nat.testBit_two_pow_mul_add _ w.isLt]
  by_cases below : b < 32 * j
  · rw [if_pos below, if_neg (by omega), Nat.testBit_mod_two_pow, decide_eq_true below, Bool.true_and]
  · by_cases inside : b - 32 * j < 32
    · rw [if_neg below, if_pos inside, if_pos (by omega), BitVec.testBit_toNat]
    · rw [if_neg below, if_neg inside, if_neg (by omega), Nat.testBit_div_two_pow, Nat.testBit_div_two_pow,
        Nat.sub_add_cancel (by omega), Nat.sub_add_cancel (by omega)]

@[simp] theorem limbOf_withLimb_same (v j : Nat) (w : Word) : limbOf (withLimb v j w) j = w := by
  refine BitVec.eq_of_getLsbD_eq fun b hb => ?_
  rw [getLsbD_limbOf _ _ hb, testBit_withLimb, if_pos (by omega), Nat.add_sub_cancel_left]

theorem limbOf_withLimb_other (v : Nat) {j k : Nat} (w : Word) (h : k ≠ j) : limbOf (withLimb v j w) k = limbOf v k := by
  refine BitVec.eq_of_getLsbD_eq fun b hb => ?_
  rw [getLsbD_limbOf _ _ hb, getLsbD_limbOf _ _ hb, testBit_withLimb, if_neg (by omega)]

/-- The sum of the lowest `n` limbs is the value cut to `n` limbs (20_memory R56). -/
theorem sum_limbs_eq_mod (v n : Nat) :
    ((List.range n).map fun j => (limbOf v j).toNat * 2 ^ (32 * j)).sum = v % 2 ^ (32 * n) := by
  induction n with
  | zero => simp [Nat.mod_one]
  | succ n ih =>
    rw [List.range_succ, List.map_append, List.sum_append, ih, Nat.mul_succ, Nat.pow_add, Nat.mod_mul]
    simp [limbOf_toNat, Nat.mul_comm]

end Sys2Proof.Machine
end

section
/-! SUPPORT. The host's accesses (spec/20_memory.md R51, R53 to R57): what stands at a byte offset, a write to each location while
idle and while busy, and the limbs the host reads after a write to one. -/

namespace Sys2Proof.Machine

/-- What stands at byte offset `off` of the window (20_memory R51). -/
def locationAt (off : Nat) : Location :=
  if off = 0x0000 then .cmd
  else if off = 0x0004 then .status
  else if off = 0x0008 then .iter
  else if off = 0x000C then .param
  else if off < 0x1000 then .reserved
  else .limb (Fin.ofNat 8 (off / 0x1000 - 1)) (off % 0x1000 / 4)

/-- The address map by byte offset (20_memory R51). -/
theorem locate_offset {off : Nat} (ha : off % 4 = 0) (hw : off < 0x9000) : locate (off / 4) = some (locationAt off) := by
  have at_word (k : Nat) : off / 4 = k ↔ off = 4 * k := by omega
  have below_word (k : Nat) : off / 4 < k ↔ off < 4 * k := by omega
  have hreg : off / 4 / 1024 = off / 0x1000 := Nat.div_div_eq_div_mul off 4 1024
  have hlimb : off / 4 % 1024 = off % 0x1000 / 4 := by omega
  rw [locate, hreg, hlimb]
  simp only [at_word, below_word, windowWords, Nat.reduceDiv, Nat.reduceMul, if_pos hw, locationAt, apply_ite some]

theorem locationAt_eq_status {off : Nat} : locationAt off = .status ↔ off = 0x0004 := by
  unfold locationAt
  split_ifs <;> simp [*]

theorem step_of_offset {s s' : State} {off : Nat} {v : Word} (h : Spec.HostWriteNext s off v s') :
    step s = .next (s'.writeAt v (locationAt off)) := by
  have ⟨_, ha, hw⟩ := h
  exact step_of_hostWrite h (locate_offset ha hw)

theorem hostWriteNext_busy {s s' : State} {off : Nat} {v : Word} (h : Spec.HostWriteNext s off v s') : s'.busy = s.busy := by
  obtain ⟨sched, e, rfl⟩ := hostWriteNext_state h
  rfl

theorem State.writeAt_idle {s : State} (v : Word) (l : Location) (hb : s.busy = false) :
    s.writeAt v l = s.writeIdle v l := by
  simp [State.writeAt, hb]

theorem State.writeAt_status (s : State) (v : Word) :
    s.writeAt v .status = { s with wrerr := s.wrerr && !v.getLsbD 3 } := by
  simp [State.writeAt, State.writeIdle, State.writeStatus_eq]

theorem State.writeAt_dropped {s : State} (v : Word) {l : Location} (hb : s.busy = true) (hl : l ≠ .status) :
    s.writeAt v l = s.dropWrite := by
  cases l with
  | status => exact absurd rfl hl
  | _ => simp only [State.writeAt, hb, if_true]

theorem State.writeAt_limb {s : State} (v : Word) (i : Reg) {j : Nat} (hb : s.busy = false) (hj : j < s.params.limbs) :
    s.writeAt v (.limb i j) = s.setX i (withLimb (s.getX i) j v) := by
  simp [State.writeAt_idle, State.writeIdle, hb, hj]

theorem State.writeAt_missing {s : State} (v : Word) (i : Reg) {j : Nat} (hb : s.busy = false) (hj : s.params.limbs ≤ j) :
    s.writeAt v (.limb i j) = s := by
  simp [State.writeAt_idle, State.writeIdle, hb, Nat.not_lt.2 hj]

theorem State.readAt_missing (s : State) (i : Reg) {j : Nat} (hj : s.params.limbs ≤ j) : s.readAt (.limb i j) = 0 :=
  if_neg (Nat.not_lt.2 hj)

theorem State.readAt_limb (s : State) (i : Reg) {j : Nat} (hj : j < s.params.limbs) :
    s.readAt (.limb i j) = limbOf (s.getX i) j := if_pos hj

/-- A write to a limb below NL is read back (20_memory R54). -/
theorem readAt_writeAt_limb_same {s : State} (v : Word) (i : Reg) {j : Nat} (hb : s.busy = false)
    (hj : j < s.params.limbs) : (s.writeAt v (.limb i j)).readAt (.limb i j) = v := by
  rw [State.writeAt_limb v i hb hj, State.readAt_limb (s.setX i _) i hj, State.getX_setX_same, limbOf_withLimb_same]

/-- A write to a limb below NL leaves every other limb of every register (20_memory R54). -/
theorem readAt_writeAt_limb_other {s : State} (v : Word) {i i' : Reg} {j k : Nat} (hb : s.busy = false)
    (hj : j < s.params.limbs) (hne : (i', k) ≠ (i, j)) :
    (s.writeAt v (.limb i j)).readAt (.limb i' k) = s.readAt (.limb i' k) := by
  have hlimb : limbOf ((s.setX i (withLimb (s.getX i) j v)).getX i') k = limbOf (s.getX i') k := by
    by_cases hi : i' = i
    · subst hi
      have hk : k ≠ j := fun hk => hne (by rw [hk])
      rw [State.getX_setX_same, limbOf_withLimb_other _ v hk]
    · rw [State.getX_setX_other s i i' _ hi]
  rw [State.writeAt_limb v i hb hj, State.readAt, hlimb]
  rfl

end Sys2Proof.Machine
end

section
/-! SUPPORT. The proofs of the host port's own statements (spec/20_memory.md R54 to R57). -/

namespace Sys2Proof.Machine

/-- Settles O12: the location at the offset, and what an idle unit does with a write there. -/
theorem hostWriteWhileIdle : Obligations.HostWriteWhileIdle := by
  unfold Obligations.HostWriteWhileIdle
  intro s s' off v h hb
  rw [step_of_offset h, State.writeAt_idle v _ ((hostWriteNext_busy h).trans hb)]
  obtain ⟨sched, e, rfl⟩ := hostWriteNext_state h
  by_cases hparam : off = 0x000C
  · subst hparam
    rfl
  · rw [locationAt, if_neg hparam]
    split_ifs with hcmd hstatus hiter hctl hlimb
    · rfl
    · rw [State.writeIdle, State.writeStatus_eq]
    · rfl
    · rfl
    · rw [State.writeIdle, withLimb_eq_limbReplaced]
      exact congrArg Host.Outcome.next (if_pos hlimb)
    · exact congrArg Host.Outcome.next (if_neg hlimb)

/-- Settles O13: only the location of `STATUS` takes a write while the unit is busy. -/
theorem hostWriteWhileBusy : Obligations.HostWriteWhileBusy := by
  unfold Obligations.HostWriteWhileBusy
  intro s s' off v h hb
  have hbusy := (hostWriteNext_busy h).trans hb
  rw [step_of_offset h]
  split
  case isTrue hoff =>
    rw [locationAt_eq_status.2 hoff, State.writeAt_status]
    obtain ⟨sched, e, rfl⟩ := hostWriteNext_state h
    rfl
  case isFalse hoff => rw [State.writeAt_dropped v hbusy (mt locationAt_eq_status.1 hoff), State.dropWrite]

/-- Settles O18: the sum of the limbs is the value cut to `OPW` bits, and a limb bit by bit. -/
theorem limbsAreLittleEndian : Obligations.LimbsAreLittleEndian := by
  unfold Obligations.LimbsAreLittleEndian
  intro s i hv
  refine ⟨?_, fun j b hj hb => ?_⟩
  · calc s.getX i = s.getX i % 2 ^ Spec.opw s := (Nat.mod_eq_of_lt hv).symm
      _ = ((List.range (Spec.limbs s)).map fun j => (limbOf (s.getX i) j).toNat * 2 ^ (32 * j)).sum :=
        (sum_limbs_eq_mod _ _).symm
      _ = _ := congrArg List.sum (List.map_congr_left fun j hj => by
        rw [State.readAt_limb s i (List.mem_range.1 hj)])
  · rw [State.readAt_limb s i hj, getLsbD_limbOf _ _ hb]

/-- Settles O19: no limb at or above NL is there to read or write, and one below NL is replaced alone. -/
theorem missingLimbs : Obligations.MissingLimbs := by
  unfold Obligations.MissingLimbs
  refine ⟨fun s i j v hj => ⟨State.readAt_missing s i hj, fun hb => State.writeAt_missing v i hb hj, fun hb => ?_⟩,
    fun s i i' j k v hb hj => ⟨readAt_writeAt_limb_same v i hb hj, readAt_writeAt_limb_other v hb hj⟩⟩
  exact State.writeAt_dropped v hb (by simp)

end Sys2Proof.Machine
end

section
/-! SUPPORT. Format `C` (spec/30_encoding.md R71, R79): the fields of a word and the word of fields as numbers, each the inverse of
the other, and what one mask of the format selects. -/

namespace Sys2Proof

/-- A bit range as a number is the spec's field (30_encoding R71). -/
theorem extractLsb'_toNat_eq_field (w : Word) (lo width : Nat) : (w.extractLsb' lo width).toNat = Spec.field w lo width := by
  rw [BitVec.extractLsb'_toNat, Nat.shiftRight_eq_div_pow, Spec.field]

/-- The value of a word is the weighted sum of its fields (30_encoding R71). -/
theorem pack_toNat (f : Fields) :
    (pack f).toNat = f.opcode.toNat * 2 ^ 28 + f.rd.toNat * 2 ^ 25 + f.rs1.toNat * 2 ^ 22 + f.rs2.toNat * 2 ^ 19 +
      f.rs3.toNat * 2 ^ 16 + f.imm16.toNat := by
  simp only [pack, toNat_append_eq_add]
  omega

/-- Each field of a word of fields is read back from its place (30_encoding R71). -/
@[simp] theorem unpack_pack (f : Fields) : unpack (pack f) = f := by
  have below := @BitVec.extractLsb'_append_eq_of_add_le
  have above := @BitVec.extractLsb'_append_eq_of_le
  simp [unpack, pack, below, above]

/-- The value of a word under a mask is that of its fields under the mask's fields. -/
theorem and_pack_toNat (w : Word) (m : Fields) : (w &&& pack m).toNat = (pack ((unpack w).masked m)).toNat :=
  congrArg BitVec.toNat (word_and_mask rfl)

@[simp] theorem selectorBits_toNat (r : Reg) : (selectorBits r).toNat = r.val := rfl

/-- The fields of a command decode to the command (30_encoding R73, R79). -/
@[simp] theorem decodeFields_fieldsOf (i : Instr) : decodeFields (fieldsOf i) = .ok i := by
  cases i <;> rfl

/-- Fields that decode to a command are the command's: the fields it does not use are zero (30_encoding R73). -/
theorem fieldsOf_of_decodeFields {f : Fields} {i : Instr} (h : decodeFields f = .ok i) : fieldsOf i = f := by
  obtain ⟨op, rd, rs1, rs2, rs3, imm⟩ := f
  obtain ⟨rfl, rfl, rfl, rfl⟩ | ⟨rfl, rfl, rfl, rfl⟩ | ⟨rfl, rfl, rfl⟩ | ⟨rfl, rfl, rfl, rfl, rfl⟩ |
    ⟨rfl, rfl, rfl, rfl, rfl⟩ := decodeFields_cases h <;> rfl

@[simp] theorem decode_encode (i : Instr) : decode (encode i) = .ok i := by
  rw [decode, encode, unpack_pack, decodeFields_fieldsOf]

theorem encode_of_decode {w : Word} {i : Instr} (h : decode w = .ok i) : encode i = w := by
  rw [encode, fieldsOf_of_decodeFields h, pack_unpack]

/-- The word of a `POWMOD` (30_encoding R71, R73). -/
theorem encode_powmod_toNat (rd rs1 rs2 rs3 : Reg) :
    (encode (.powmod rd rs1 rs2 rs3)).toNat =
      3 * 2 ^ 28 + rd.val * 2 ^ 25 + rs1.val * 2 ^ 22 + rs2.val * 2 ^ 19 + rs3.val * 2 ^ 16 := by
  rw [encode, pack_toNat]
  simp [fieldsOf]

end Sys2Proof
end

section
/-! SUPPORT. The value of `POWMOD` (spec/42_powmod.md R106, R107): the loop computes the power reduced by the modulus. -/

namespace Sys2Proof.Machine

theorem lt_two_pow_bitlen (v : Nat) : v < 2 ^ bitlen v := by
  unfold bitlen
  split
  case isTrue h => simp [h]
  case isFalse h => exact Nat.lt_log2_self

/-- One pass of the loop keeps `result * b ^ e` modulo `m` (42_powmod R107). -/
theorem powLoop_pass (m result b e : Nat) :
    (if e % 2 = 1 then result * b % m else result) * (b * b % m) ^ (e / 2) ≡ result * b ^ e [MOD m] := by
  have square : (b * b % m) ^ (e / 2) ≡ b ^ (2 * (e / 2)) [MOD m] := by
    rw [Nat.pow_mul, Nat.pow_two]
    exact (Nat.mod_modEq _ _).pow _
  split
  case isTrue hodd =>
    have he : e = 1 + 2 * (e / 2) := by omega
    calc result * b % m * (b * b % m) ^ (e / 2)
        ≡ result * b * b ^ (2 * (e / 2)) [MOD m] := (Nat.mod_modEq _ _).mul square
      _ = result * b ^ e := by rw [Nat.mul_assoc, ← Nat.pow_add_one', Nat.add_comm, ← he]
  case isFalse heven =>
    have he : e = 2 * (e / 2) := by omega
    rw [← he] at square
    exact square.mul_left result

/-- The loop with passes enough for the exponent, from a reduced `result` (42_powmod R107). -/
theorem powLoop_eq (m : Nat) {fuel result e : Nat} (b : Nat) (hr : result % m = result) (he : e < 2 ^ fuel) :
    powLoop m fuel result b e = result * b ^ e % m := by
  induction fuel generalizing result b e with
  | zero =>
    obtain rfl : e = 0 := by omega
    simp [powLoop, hr]
  | succ fuel ih =>
    rw [powLoop]
    split
    case isTrue h => simp [h, hr]
    case isFalse h =>
      rw [ih _ (by split <;> simp [hr]) (by omega)]
      exact powLoop_pass m result b e

/-- The result of `POWMOD` is the exact power, reduced (42_powmod R106). -/
theorem powmodResult_eq (base exponent m : Nat) : powmodResult base exponent m = base ^ exponent % m := by
  rw [powmodResult, powLoop_eq m _ (Nat.mod_mod _ _) (lt_two_pow_bitlen exponent)]
  calc 1 % m * (base % m) ^ exponent
      ≡ 1 * base ^ exponent [MOD m] := (Nat.mod_modEq 1 m).mul ((Nat.mod_modEq base m).pow exponent)
    _ = base ^ exponent := Nat.one_mul _

/-- `POWMOD` with a nonzero modulus (42_powmod R106). -/
theorem execPowmod_of_ne_zero (rd rs1 rs2 rs3 : Reg) (s : State) (h : s.getX rs3 ≠ 0) :
    exec (.powmod rd rs1 rs2 rs3) s = .next (Spec.completed s rd (s.getX rs1 ^ s.getX rs2 % s.getX rs3)) := by
  simp only [exec, execPowmod, if_neg h, powmodResult_eq]
  rfl

end Sys2Proof.Machine
end

section
/-! SUPPORT. The proofs of the encoding's own statements (spec/30_encoding.md R71, R78, R79). -/

namespace Sys2Proof.Machine

/-- Settles O1: packing and unpacking are inverse, and so are a command and its fields. -/
theorem decodeEncodeRoundTrip : Obligations.DecodeEncodeRoundTrip := by
  unfold Obligations.DecodeEncodeRoundTrip
  refine ⟨decode_encode, fun w i => encode_of_decode, fun w w' i h h' => ?_⟩
  rw [← encode_of_decode h, encode_of_decode h']

/-- Settles O3: each field is its bit range, a mask of the format keeps one field, and the word is the sum. -/
theorem formatFields : Obligations.FormatFields := by
  unfold Obligations.FormatFields
  have range := extractLsb'_toNat_eq_field
  have masked := and_pack_toNat
  refine ⟨fun w => ⟨range w 28 4, range w 25 3, range w 22 3, range w 19 3, range w 16 3, range w 0 16, ?_⟩, pack_toNat⟩
  refine ⟨(masked w ⟨.allOnes 4, 0, 0, 0, 0, 0⟩).trans ?_, (masked w ⟨0, .allOnes 3, 0, 0, 0, 0⟩).trans ?_,
    (masked w ⟨0, 0, .allOnes 3, 0, 0, 0⟩).trans ?_, (masked w ⟨0, 0, 0, .allOnes 3, 0, 0⟩).trans ?_,
    (masked w ⟨0, 0, 0, 0, .allOnes 3, 0⟩).trans ?_, (masked w ⟨0, 0, 0, 0, 0, .allOnes 16⟩).trans ?_⟩
  all_goals
    rw [Fields.masked, BitVec.and_allOnes, pack_toNat]
    simp [unpack, range]

/-- Settles O6: each pseudo-instruction is a `POWMOD` by definition, with its word and its value. -/
theorem pseudoInstructions : Obligations.PseudoInstructions := by
  unfold Obligations.PseudoInstructions
  exact ⟨fun d m n => ⟨rfl, encode_powmod_toNat d m n n, execPowmod_of_ne_zero d m n n⟩,
    fun d c e p => ⟨rfl, encode_powmod_toNat d c e p, execPowmod_of_ne_zero d c e p⟩, by decide⟩

end Sys2Proof.Machine
end

section
/-! SUPPORT. A command word from the outside (spec/30_encoding.md R71, R73, R74): the fields under a row's mask, the register a
selector field names, and the must-be-zero bits of a word that decodes. -/

namespace Sys2Proof

/-- What a row's mask and match say of the fields (30_encoding R73); the converse is `word_and_mask`. -/
theorem masked_of_word_and_mask {w : Word} {m g : Fields} (h : w &&& pack m = pack g) : (unpack w).masked m = g := by
  rw [← unpack_pack ((unpack w).masked m), ← word_and_mask rfl, h, unpack_pack]

/-- A 3-bit range names the register of the spec's selector field (30_encoding R74). -/
theorem selector_extractLsb' (w : Word) (lo : Nat) : selector (w.extractLsb' lo 3) = Spec.regAt w lo := by
  apply Fin.ext
  rw [Spec.regAt, ← extractLsb'_toNat_eq_field]
  exact (Nat.mod_eq_of_lt (w.extractLsb' lo 3).isLt).symm

/-- Bits 18:0 are `rs3` above `imm16` (30_encoding R71). -/
theorem field_low19 (w : Word) : Spec.field w 0 19 = (unpack w).rs3.toNat * 2 ^ 16 + (unpack w).imm16.toNat := by
  have hrs3 : (unpack w).rs3.toNat = Spec.field w 16 3 := extractLsb'_toNat_eq_field w 16 3
  have himm : (unpack w).imm16.toNat = Spec.field w 0 16 := extractLsb'_toNat_eq_field w 0 16
  rw [hrs3, himm, Spec.field, Spec.field, Spec.field]
  omega

/-- A word of the row `GCD` is that command, with its operands in the three selector fields (30_encoding R73). -/
theorem decode_of_gcd_row {w : Word} (h : w &&& 0xF007FFFF#32 = 0x10000000#32) :
    decode w = .ok (.gcd (Spec.regAt w 25) (Spec.regAt w 22) (Spec.regAt w 19)) := by
  have hfields : (unpack w).masked ⟨.allOnes 4, 0, 0, 0, .allOnes 3, .allOnes 16⟩ = ⟨1, 0, 0, 0, 0, 0⟩ :=
    masked_of_word_and_mask h
  simp only [Fields.masked, BitVec.and_allOnes, Fields.mk.injEq] at hfields
  obtain ⟨hop, -, -, -, hrs3, himm⟩ := hfields
  rw [← selector_extractLsb', ← selector_extractLsb', ← selector_extractLsb', decode, decodeFields, hop, hrs3, himm]
  rfl

/-- In a `GCD` that decodes the must-be-zero bits are zero (40_gcd R91). -/
theorem low19_zero_of_decode_gcd {w : Word} {i : Instr} (h : decode w = .ok i) (hop : Spec.field w 28 4 = 1) :
    Spec.field w 0 19 = 0 := by
  have hcode : (unpack w).opcode.toNat = 1 := (extractLsb'_toNat_eq_field w 28 4).trans hop
  rw [field_low19]
  obtain ⟨-, hrs3, himm, -⟩ | ⟨ho, -⟩ | ⟨ho, -⟩ | ⟨ho, -⟩ | ⟨ho, -⟩ := decodeFields_cases h
  · rw [hrs3, himm]
    rfl
  all_goals
    rw [ho] at hcode
    cases hcode

end Sys2Proof
end

section
/-! SUPPORT. The engine's move in the spec's words (spec/10_state.md R32, 30_encoding.md R75): what it leaves of the state, and the
step under a word that decodes and under one that does not. -/

namespace Sys2Proof.Machine

/-- Before the engine moves, only the plan and the pace change. -/
theorem engineRuns_state {s u : State} (h : Spec.EngineRuns s u) :
    ∃ sched e k, u = { s with schedule := sched, endless := e, pace := k } := by
  obtain ⟨-, ⟨k, s', hn, rfl⟩ | ⟨-, rfl⟩⟩ := h
  · obtain ⟨sched, e, rfl⟩ := specNextTurn_state hn
    exact ⟨sched, e, k, rfl⟩
  · exact ⟨s.schedule, s.endless, _, rfl⟩

/-- When the engine moves, the step is its turn (00_scope R6, R10). -/
theorem step_of_engineRuns {s u : State} (h : Spec.EngineRuns s u) : step s = engineTurn u := by
  obtain ⟨hb, ⟨k, s', hn, rfl⟩ | ⟨hn, rfl⟩⟩ := h
  · exact step_of_specNextTurn hn
  · rw [step_of_none (nextTurn_none.2 hn), owedTurn, if_pos hb]

/-- A word that decodes is executed (10_state R32). -/
theorem step_of_decode_ok {s u : State} {i : Instr} (h : Spec.EngineRuns s u) (hd : decode s.cmd = .ok i) :
    step s = exec i u := by
  rw [step_of_engineRuns h]
  obtain ⟨sched, e, k, rfl⟩ := engineRuns_state h
  simp only [engineTurn, h.left, hd, if_true]

/-- A word that does not decode ends in the `ILLEGAL` fault (30_encoding R75, 60_exceptions R163). -/
theorem step_of_decode_error {s u : State} {e : IllegalWord} (h : Spec.EngineRuns s u) (hd : decode s.cmd = .error e) :
    step s = .next (Spec.faulted u .illegal 1) := by
  rw [step_of_engineRuns h]
  obtain ⟨sched, n, k, rfl⟩ := engineRuns_state h
  simp only [engineTurn, h.left, hd, if_true]
  rfl

/-- A must-be-zero field that is zero in each word of the opcode that decodes is enforced by the step (60_exceptions R161). -/
theorem illegalWhenNotZero_of_decode {op lo width : Nat}
    (hzero : ∀ {w : Word} {i : Instr}, decode w = .ok i → Spec.field w 28 4 = op → Spec.field w lo width = 0) :
    Spec.IllegalWhenNotZero op lo width := by
  intro s u h hop hne
  cases hd : decode s.cmd with
  | error e => exact step_of_decode_error h hd
  | ok i => exact absurd (hzero hd hop) hne

end Sys2Proof.Machine
end

section
/-! SUPPORT. The value of `GCD` (spec/40_gcd.md R91) and the proofs of its own statements (R91, R92). -/

namespace Sys2Proof.Machine

/-- One pass of the loop keeps the greatest common divisor (40_gcd R91). -/
theorem gcd_pass (a b : Nat) : Nat.gcd b (a % b) = Nat.gcd a b := by
  rw [Nat.gcd_comm, ← Nat.gcd_rec, Nat.gcd_comm]

/-- The loop of 40_gcd R91, with passes enough, ends with the greatest common divisor. -/
theorem euclid_eq_gcd {fuel b : Nat} (a : Nat) (h : b < fuel) : euclid fuel a b = Nat.gcd a b := by
  induction fuel generalizing a b with
  | zero => omega
  | succ fuel ih =>
    rw [euclid]
    split
    case isTrue hz => rw [hz, Nat.gcd_zero_right]
    case isFalse hnz =>
      have hlt : a % b < b := Nat.mod_lt a (by omega)
      rw [ih b (by omega), gcd_pass]

theorem gcdResult_eq_gcd (a b : Nat) : gcdResult a b = Nat.gcd a b := euclid_eq_gcd a (Nat.lt_succ_self b)

/-- `GCD` completes with the greatest common divisor and changes nothing else (40_gcd R91). -/
theorem execGcd_eq (rd rs1 rs2 : Reg) (s : State) :
    exec (.gcd rd rs1 rs2) s = .next (Spec.completed s rd (Nat.gcd (s.getX rs1) (s.getX rs2))) := by
  simp only [exec, execGcd, gcdResult_eq_gcd]
  rfl

/-- Settles O22: the loop's value, the word of the row as the step runs it, and the must-be-zero bits of a word that decodes.
(The name `gcdResult` is the model's.) -/
theorem gcdResultHolds : Obligations.GcdResult := by
  unfold Obligations.GcdResult
  refine ⟨execGcd_eq, fun s u h hw => ?_, illegalWhenNotZero_of_decode low19_zero_of_decode_gcd⟩
  rw [step_of_decode_ok h (decode_of_gcd_row hw), execGcd_eq]
  obtain ⟨sched, e, k, rfl⟩ := engineRuns_state h
  rfl

/-- Settles O23: the value is `Nat.gcd`, whose laws these are. -/
theorem gcdLaws : Obligations.GcdLaws := by
  unfold Obligations.GcdLaws
  simp only [gcdResult_eq_gcd]
  exact ⟨Nat.gcd_zero_right, Nat.gcd_zero_left, fun a b _ _ => (gcd_pass a b).symm, Nat.gcd_comm,
    fun a b _ => ⟨Nat.gcd_dvd_left a b, Nat.gcd_dvd_right a b⟩, fun a b d => Nat.dvd_gcd⟩

end Sys2Proof.Machine
end

section
/-! SUPPORT. A `MODINV` word from the outside (spec/30_encoding.md R73): its operands and its must-be-zero bits. -/

namespace Sys2Proof

/-- A word of the row `MODINV` is that command, with its operands in the three selector fields (30_encoding R73). -/
theorem decode_of_modinv_row {w : Word} (h : w &&& 0xF007FFFF#32 = 0x20000000#32) :
    decode w = .ok (.modinv (Spec.regAt w 25) (Spec.regAt w 22) (Spec.regAt w 19)) := by
  have hfields : (unpack w).masked ⟨.allOnes 4, 0, 0, 0, .allOnes 3, .allOnes 16⟩ = ⟨2, 0, 0, 0, 0, 0⟩ :=
    masked_of_word_and_mask h
  simp only [Fields.masked, BitVec.and_allOnes, Fields.mk.injEq] at hfields
  obtain ⟨hop, -, -, -, hrs3, himm⟩ := hfields
  simp only [← selector_extractLsb', decode, decodeFields, hop, hrs3, himm]
  rfl

/-- In a `MODINV` that decodes the must-be-zero bits are zero (41_modinv R96). -/
theorem low19_zero_of_decode_modinv {w : Word} {i : Instr} (h : decode w = .ok i) (hop : Spec.field w 28 4 = 2) :
    Spec.field w 0 19 = 0 := by
  have hcode : (unpack w).opcode.toNat = 2 := (extractLsb'_toNat_eq_field w 28 4).trans hop
  obtain ⟨ho, -⟩ | ⟨-, hrs3, himm, -⟩ | ⟨ho, -⟩ | ⟨ho, -⟩ | ⟨ho, -⟩ := decodeFields_cases h
  case inr.inl => simp [field_low19, hrs3, himm]
  all_goals simp [ho] at hcode

end Sys2Proof
end

section
/-! SUPPORT. The value of `MODINV` (spec/41_modinv.md R96, R98): the loop keeps the Bézout congruences, so its last coefficient,
reduced, is the inverse. -/

namespace Sys2Proof.Machine

/-- `r` is an inverse of `a` modulo `n`, in range (41_modinv R96). -/
def IsInverse (a n r : Nat) : Prop := r < n ∧ a * r % n = 1 % n

/-- The inverse is unique: `a` cancels modulo `n` (41_modinv R96). -/
theorem IsInverse.unique {a n r r' : Nat} (h : IsInverse a n r) (h' : IsInverse a n r') (hg : Nat.gcd a n = 1) : r' = r := by
  obtain ⟨hlt, hinv⟩ := h
  obtain ⟨hlt', hinv'⟩ := h'
  have hprod : a * r' ≡ a * r [MOD n] := hinv'.trans hinv.symm
  have hmod : r' ≡ r [MOD n] := hprod.cancel_left_of_coprime (Nat.gcd_comm a n ▸ hg)
  exact hmod.eq_of_lt_of_lt hlt' hlt

/-- An inverse of `a` is one of `a mod n` (41_modinv R96). -/
theorem isInverse_mod {a n r : Nat} : IsInverse (a % n) n r ↔ IsInverse a n r := by
  rw [IsInverse, IsInverse, Nat.mod_mul_mod]

/-- 0 is an inverse for the modulus 1 only (41_modinv R97). -/
theorem IsInverse.modulus_eq_one {a n : Nat} (h : IsInverse a n 0) : n = 1 := by
  obtain ⟨-, hinv⟩ := h
  rw [Nat.mul_zero, Nat.zero_mod] at hinv
  exact Nat.one_mod_eq_zero_iff.1 hinv.symm

/-- One pass of the loop of 41_modinv R98 keeps `a·t ≡ r` for the two pairs, so it holds of the last one. -/
theorem extEuclid_bezout (a n : Int) (fuel r0 r1 : Nat) (t0 t1 : Int) (h0 : a * t0 ≡ r0 [ZMOD n])
    (h1 : a * t1 ≡ r1 [ZMOD n]) :
    a * (extEuclid fuel r0 r1 t0 t1).2 ≡ (extEuclid fuel r0 r1 t0 t1).1 [ZMOD n] := by
  induction fuel generalizing r0 r1 t0 t1 with
  | zero => exact h0
  | succ fuel ih =>
    rw [extEuclid]
    split
    case isTrue => exact h0
    case isFalse =>
      refine ih _ _ _ _ h1 ?_
      have hcoeff : a * (t0 - (r0 / r1 : Nat) * t1) = a * t0 - (r0 / r1 : Nat) * (a * t1) := by ring
      rw [hcoeff, Nat.cast_sub (Nat.div_mul_le_self r0 r1), Nat.cast_mul]
      exact h0.sub (h1.mul_left _)

/-- The Bézout coefficient of `a` the loop ends with (41_modinv R98). -/
def bezoutCoeff (a n : Nat) : Int := (extEuclid (a + 1) n a 0 1).2

theorem extEuclid_eq (a n : Nat) : extEuclid (a + 1) n a 0 1 = (Nat.gcd a n, bezoutCoeff a n) := by
  rw [bezoutCoeff, Nat.gcd_comm, ← extEuclid_fst (a + 1) n a 0 1 (Nat.lt_succ_self a)]

theorem mul_bezoutCoeff (a n : Nat) : a * bezoutCoeff a n ≡ Nat.gcd a n [ZMOD n] := by
  have hloop := extEuclid_bezout a n (a + 1) n a 0 1 (by simp [Int.ModEq]) (by rw [mul_one])
  rwa [extEuclid_eq] at hloop

theorem modinvResult_of_common {a n : Nat} (h : 1 < Nat.gcd a n) : modinvResult a n = (0, true) := by
  rw [modinvResult, extEuclid_eq]
  exact if_pos h

theorem modinvResult_of_coprime {a n : Nat} (h : Nat.gcd a n = 1) :
    modinvResult a n = ((bezoutCoeff a n % n).toNat, false) := by
  rw [modinvResult, extEuclid_eq]
  exact if_neg (by omega)

theorem modinvResult_isInverse {a n : Nat} (hn : 1 ≤ n) (hg : Nat.gcd a n = 1) : IsInverse a n (modinvResult a n).1 := by
  rw [modinvResult_of_coprime hg]
  have hpos : (0 : Int) < n := by omega
  have hcast : ((bezoutCoeff a n % n).toNat : Int) = bezoutCoeff a n % n :=
    Int.toNat_of_nonneg (Int.emod_nonneg _ hpos.ne')
  constructor
  · have hlt := Int.emod_lt_of_pos (bezoutCoeff a n) hpos
    omega
  · have hbezout : a * bezoutCoeff a n ≡ 1 [ZMOD n] := by simpa [hg] using mul_bezoutCoeff a n
    have hreduced : a * (bezoutCoeff a n % n) ≡ 1 [ZMOD n] := ((Int.mod_modEq _ _).mul_left _).trans hbezout
    rw [← hcast] at hreduced
    exact Int.natCast_modEq_iff.1 (by exact_mod_cast hreduced)

/-- With a modulus that is not 0, the greatest common divisor is above 1 or is 1 (41_modinv R96). -/
theorem gcd_above_one_or_one (a : Nat) {n : Nat} (hn : 1 ≤ n) : 1 < Nat.gcd a n ∨ Nat.gcd a n = 1 := by
  have hpos : 0 < Nat.gcd a n := Nat.gcd_pos_of_pos_right a hn
  omega

theorem modinvResult_lt (a : Nat) {n : Nat} (hn : 1 ≤ n) : (modinvResult a n).1 < n := by
  obtain hg | hg := gcd_above_one_or_one a hn
  · rw [modinvResult_of_common hg]
    exact hn
  · exact (modinvResult_isInverse hn hg).left

theorem modinvResult_mod (a : Nat) {n : Nat} (hn : 1 ≤ n) : modinvResult (a % n) n = modinvResult a n := by
  have hgcd : Nat.gcd (a % n) n = Nat.gcd a n := by rw [← Nat.gcd_rec, Nat.gcd_comm]
  obtain hg | hg := gcd_above_one_or_one a hn
  · rw [modinvResult_of_common hg, modinvResult_of_common (hgcd ▸ hg)]
  · have hinv := isInverse_mod.1 (modinvResult_isInverse hn (hgcd.trans hg))
    have hvalue := (modinvResult_isInverse hn hg).unique hinv hg
    exact Prod.ext hvalue (by rw [modinvResult_of_coprime hg, modinvResult_of_coprime (hgcd.trans hg)])

/-- The result 0 is the sentinel except for the modulus 1 (41_modinv R97). -/
theorem modinvResult_zero_false (a : Nat) {n : Nat} (hn : 1 ≤ n) : modinvResult a n = (0, false) ↔ n = 1 := by
  constructor
  · intro h
    obtain hg | hg := gcd_above_one_or_one a hn
    · rw [modinvResult_of_common hg] at h
      cases h
    · have hinv := modinvResult_isInverse hn hg
      rw [h] at hinv
      exact hinv.modulus_eq_one
  · rintro rfl
    have hg : Nat.gcd a 1 = 1 := Nat.gcd_one_right a
    exact Prod.ext (Nat.lt_one_iff.1 (modinvResult_lt a hn)) (by rw [modinvResult_of_coprime hg])

end Sys2Proof.Machine
end

section
/-! SUPPORT. The proofs of the statements of `MODINV` (spec/41_modinv.md R96, R99). -/

namespace Sys2Proof.Machine

/-- A `MODINV` with a zero modulus is the `DIVZERO` fault (41_modinv R96). -/
theorem execModinv_of_zero (rd rs1 rs2 : Reg) (s : State) (h : s.getX rs2 = 0) :
    exec (.modinv rd rs1 rs2) s = .next (Spec.faulted s .divzero 2) := by
  simp only [exec, execModinv, if_pos h]
  rfl

/-- A `MODINV` of operands with a common divisor above 1 completes with the sentinel (41_modinv R96). -/
theorem execModinv_of_common (rd rs1 rs2 : Reg) (s : State) (hn : s.getX rs2 ≠ 0)
    (hg : 1 < Nat.gcd (s.getX rs1) (s.getX rs2)) :
    exec (.modinv rd rs1 rs2) s = .next (Spec.completedFlag s rd 0 true) := by
  rw [execModinv_of_ne_zero rd rs1 rs2 s hn, modinvResult_of_common hg]
  rfl

/-- A `MODINV` of coprime operands completes with the value of the loop and no flag (41_modinv R96). -/
theorem execModinv_of_coprime (rd rs1 rs2 : Reg) (s : State) (hn : s.getX rs2 ≠ 0)
    (hg : Nat.gcd (s.getX rs1) (s.getX rs2) = 1) :
    exec (.modinv rd rs1 rs2) s =
      .next (Spec.completedFlag s rd (modinvResult (s.getX rs1) (s.getX rs2)).1 false) := by
  rw [execModinv_of_ne_zero rd rs1 rs2 s hn, modinvResult_of_coprime hg]
  rfl

/-- Settles O24: the three cases of the modulus and the greatest common divisor, with the loop's value as the one inverse.
(The name `modinvResult` is the model's.) -/
theorem modinvResultHolds : Obligations.ModinvResult := by
  unfold Obligations.ModinvResult
  refine ⟨execModinv_of_zero, execModinv_of_common, fun rd rs1 rs2 s hn hg => ?_, fun w => decode_of_modinv_row,
    illegalWhenNotZero_of_decode low19_zero_of_decode_modinv⟩
  have hinv := modinvResult_isInverse (Nat.one_le_iff_ne_zero.2 hn) hg
  exact ⟨_, hinv.left, hinv.right, fun r' hlt hr => hinv.unique ⟨hlt, hr⟩ hg, execModinv_of_coprime rd rs1 rs2 s hn hg⟩

/-- Settles O25: each law from the value's two cases, a common divisor above 1 or the inverse. -/
theorem modinvLaws : Obligations.ModinvLaws := by
  unfold Obligations.ModinvLaws
  refine ⟨fun a n => modinvResult_lt a, fun a n hn hg => ⟨(modinvResult_isInverse hn hg).right, ?_⟩,
    fun a n _ => modinvResult_of_common, modinvResult_of_common (by decide), fun a n hn => ?_,
    fun a n => modinvResult_zero_false a⟩
  · rw [modinvResult_of_coprime hg]
  · rw [modinvResult_mod a hn]

end Sys2Proof.Machine
end

section
/-! SUPPORT. A `POWMOD` word from the outside (spec/30_encoding.md R73): its operands and its must-be-zero bits. -/

namespace Sys2Proof

/-- A word of the row `POWMOD` is that command, with its operands in the four selector fields (30_encoding R73). -/
theorem decode_of_powmod_row {w : Word} (h : w &&& 0xF000FFFF#32 = 0x30000000#32) :
    decode w = .ok (.powmod (Spec.regAt w 25) (Spec.regAt w 22) (Spec.regAt w 19) (Spec.regAt w 16)) := by
  have hfields : (unpack w).masked ⟨.allOnes 4, 0, 0, 0, 0, .allOnes 16⟩ = ⟨3, 0, 0, 0, 0, 0⟩ :=
    masked_of_word_and_mask h
  simp only [Fields.masked, BitVec.and_allOnes, Fields.mk.injEq] at hfields
  obtain ⟨hop, -, -, -, -, himm⟩ := hfields
  simp only [← selector_extractLsb', decode, decodeFields, hop, himm]
  rfl

/-- In a `POWMOD` that decodes the must-be-zero bits are zero (42_powmod R106). -/
theorem low16_zero_of_decode_powmod {w : Word} {i : Instr} (h : decode w = .ok i) (hop : Spec.field w 28 4 = 3) :
    Spec.field w 0 16 = 0 := by
  have hcode : (unpack w).opcode.toNat = 3 := (extractLsb'_toNat_eq_field w 28 4).trans hop
  obtain ⟨ho, -⟩ | ⟨ho, -⟩ | ⟨-, himm, -⟩ | ⟨ho, -⟩ | ⟨ho, -⟩ := decodeFields_cases h
  case inr.inr.inl => exact (extractLsb'_toNat_eq_field w 0 16).symm.trans (congrArg BitVec.toNat himm)
  all_goals simp [ho] at hcode

end Sys2Proof
end

section
/-! SUPPORT. The proofs of the statements of `POWMOD` (spec/42_powmod.md R106, R109). -/

namespace Sys2Proof.Machine

/-- A `POWMOD` with a zero modulus is the `DIVZERO` fault (42_powmod R106). -/
theorem execPowmod_of_zero (rd rs1 rs2 rs3 : Reg) (s : State) (h : s.getX rs3 = 0) :
    exec (.powmod rd rs1 rs2 rs3) s = .next (Spec.faulted s .divzero 2) := by
  simp only [exec, execPowmod, if_pos h]
  rfl

/-- Settles O26: the two cases of the modulus, the word of the row and its must-be-zero bits.
(The name `powmodResult` is the model's.) -/
theorem powmodResultHolds : Obligations.PowmodResult := by
  unfold Obligations.PowmodResult
  exact ⟨execPowmod_of_zero, execPowmod_of_ne_zero, fun w => decode_of_powmod_row,
    illegalWhenNotZero_of_decode low16_zero_of_decode_powmod⟩

/-- Settles O27: the value is the exact power, reduced, so each law is one of powers modulo `m`. -/
theorem powmodLaws : Obligations.PowmodLaws := by
  unfold Obligations.PowmodLaws
  intro b e m hm
  simp only [powmodResult_eq]
  refine ⟨Nat.mod_lt _ hm, by rw [Nat.pow_zero], ?succ, ?square, Nat.pow_mod b e m, fun e' => ?sum⟩
  case succ => rw [Nat.pow_succ, Nat.mod_mul_mod]
  case square => rw [← Nat.pow_mod, ← Nat.pow_two, ← Nat.pow_mul]
  case sum => rw [Nat.pow_add, Nat.mul_mod]

end Sys2Proof.Machine
end

section
/-! SUPPORT. The decomposition `n - 1 = 2^s r` (spec/43_isprime.md R121): whatever pair with `r` odd makes up the number, halving
finds it. -/

namespace Sys2Proof.Machine

/-- Halving, with passes enough, finds the pair the number is made of. -/
theorem splitTwos_eq {fuel s r : Nat} (hr : r % 2 = 1) (hf : 2 ^ s * r < 2 ^ fuel) : splitTwos fuel (2 ^ s * r) = (s, r) := by
  induction fuel generalizing s with
  | zero =>
    have hpos : 0 < 2 ^ s * r := Nat.mul_pos (Nat.two_pow_pos s) (by omega)
    omega
  | succ fuel ih =>
    cases s with
    | zero => simp [splitTwos, hr]
    | succ s =>
      have hdouble : 2 ^ (s + 1) * r = 2 * (2 ^ s * r) := by rw [Nat.pow_succ', Nat.mul_assoc]
      rw [hdouble] at hf ⊢
      rw [splitTwos, if_pos (Nat.mul_mod_right _ _), Nat.mul_div_cancel_left _ Nat.two_pos, ih (by omega)]

/-- The decomposition is the one pair with `r` odd (43_isprime R121). -/
theorem decomposition_eq {n s r : Nat} (hn : n - 1 = 2 ^ s * r) (hr : r % 2 = 1) : decomposition n = (s, r) := by
  have hf := lt_two_pow_bitlen (n - 1)
  rw [decomposition]
  rw [hn] at hf ⊢
  exact splitTwos_eq hr hf

/-- Every number from 2 up has its decomposition (43_isprime R121). -/
theorem decomposition_spec {n : Nat} (hn : 2 ≤ n) :
    n - 1 = 2 ^ (decomposition n).1 * (decomposition n).2 ∧ (decomposition n).2 % 2 = 1 := by
  obtain ⟨s, r, hr, h⟩ := Nat.exists_eq_two_pow_mul_odd (n := n - 1) (by omega)
  rw [Nat.odd_iff] at hr
  rw [decomposition_eq h hr]
  exact ⟨h, hr⟩

/-- The trailing zero bits of `2^s r` with `r` odd are the `s` lowest. -/
theorem testBit_two_pow_mul_odd {s r : Nat} (hr : r % 2 = 1) :
    (∀ j, j < s → (2 ^ s * r).testBit j = false) ∧ (2 ^ s * r).testBit s = true := by
  simp only [Nat.testBit_two_pow_mul]
  refine ⟨fun j hj => ?_, ?_⟩
  · simp [Nat.not_le.2 hj]
  · simp [Nat.testBit_zero, hr]

end Sys2Proof.Machine
end

section
/-! SUPPORT. One trial of the test (spec/43_isprime.md R119, R120): the loop in closed form, and the verdict for the witness
drawn. -/

namespace Sys2Proof.Machine

/-- Squaring first, then `j` times, is squaring `j + 1` times (43_isprime R120). -/
theorem square_pow_mod (n y j : Nat) : (y * y % n) ^ 2 ^ j % n = y ^ 2 ^ (j + 1) % n := by
  rw [← Nat.pow_mod, ← Nat.pow_two, ← Nat.pow_mul, ← Nat.pow_succ']

/-- The squarings pass exactly when one of the `k` squares is `n - 1`: once `y` is 1 every later square is 1, so `n - 1` is not
reached any more (43_isprime R120). -/
theorem squarings_iff {n : Nat} (hn : 3 ≤ n) (k y : Nat) :
    squarings n k y = true ↔ ∃ j, j < k ∧ y ^ 2 ^ (j + 1) % n = n - 1 := by
  induction k generalizing y with
  | zero => simp [squarings]
  | succ k ih =>
    have hfirst : y ^ 2 ^ (0 + 1) % n = y * y % n := by rw [Nat.zero_add, Nat.pow_one, Nat.pow_two]
    rw [Nat.exists_lt_succ_left, hfirst, squarings]
    simp only [← square_pow_mod n y]
    split
    case isTrue h => simp [h]
    case isFalse h =>
      split
      case isTrue h1 =>
        rw [h1] at h
        simp [h1, h, Nat.mod_eq_of_lt (show 1 < n by omega)]
      case isFalse h1 => simp [h, ih]

/-- A trial passes at once, or by its squarings (43_isprime R120). -/
theorem trialPasses_iff_squarings (n s r a : Nat) :
    trialPasses n s r a = true ↔ a ^ r % n = 1 ∨ a ^ r % n = n - 1 ∨ squarings n (s - 1) (a ^ r % n) = true := by
  rw [← or_assoc, trialPasses, powmodResult_eq]
  split
  case isTrue h => simp [h]
  case isFalse h => simp [h]

/-- A trial passes exactly by the closed form (43_isprime R120). -/
theorem trialPasses_iff {n : Nat} (hn : 3 ≤ n) (s r a : Nat) :
    trialPasses n s r a = true ↔ a ^ r % n = 1 ∨ ∃ j, j ≤ s - 1 ∧ a ^ (2 ^ j * r) % n = n - 1 := by
  have hpow : ∀ j, (a ^ r % n) ^ 2 ^ j % n = a ^ (2 ^ j * r) % n := fun j => by
    rw [← Nat.pow_mod, ← Nat.pow_mul, Nat.mul_comm]
  simp only [trialPasses_iff_squarings, squarings_iff hn, hpow, ← Nat.lt_succ_iff, Nat.exists_lt_succ_left, Nat.pow_zero,
    Nat.one_mul]

/-- A trial fails the test exactly when `TrialPasses` is false of its witness (43_isprime R117, R119). -/
theorem runTrial_failed_iff (t : Trials) (src : Source) :
    (runTrial t src).1 = .failed ↔
      trialPasses t.n (decomposition t.n).1 (decomposition t.n).2 (2 + (src.draw (.below (t.n - 3))).1) = false := by
  simp only [runTrial]
  split
  case isTrue h =>
    rw [h]
    split <;> simp
  case isFalse h => simpa using h

end Sys2Proof.Machine
end

section
/-! SUPPORT. The proofs of the statements of `ISPRIME` about one trial and its count (spec/43_isprime.md R118 to R121). -/

namespace Sys2Proof.Machine

/-- With no trial to run, an odd operand from 5 up is reported probably prime, without a draw (43_isprime R118). -/
theorem execIsprime_vacuous (rd rs1 : Reg) (s : State) (hp : s.phase = .fresh) (hr : s.source.ready = true)
    (hT : s.trialCount = 0) (hodd : s.getX rs1 % 2 = 1) (h5 : 5 ≤ s.getX rs1) :
    exec (.isprime rd rs1) s = .next (Spec.completed s rd 1) := by
  rw [execIsprime_fresh rd rs1 s hp hr, hT, beginTest_vacuous _ hodd h5]
  exact pursue_finished _ _ rd s 1 s.source hr (drive_finished _ _ _ _)

/-- Settles O31: the pair exists and halving finds it, whichever it is; the rest is read off `2^s r`. -/
theorem decompositionUnique : Obligations.DecompositionUnique := by
  unfold Obligations.DecompositionUnique
  refine ⟨fun n h5 hodd => ?_, decomposition_eq rfl rfl, decomposition_eq rfl rfl, decomposition_eq rfl rfl,
    decomposition_eq rfl rfl, decomposition_eq rfl rfl⟩
  obtain ⟨hn, hr⟩ := decomposition_spec (n := n) (by omega)
  obtain ⟨hlow, hbit⟩ := testBit_two_pow_mul_odd (s := (decomposition n).1) hr
  rw [← hn] at hlow hbit
  refine ⟨?_, hn, hr, fun s r h hodd' => (decomposition_eq h hodd').symm, hlow, hbit, ?_⟩
  · refine Nat.pos_of_ne_zero fun hs => ?_
    rw [hs, Nat.pow_zero, Nat.one_mul] at hn
    omega
  · exact (Nat.div_eq_of_eq_mul_right (Nat.two_pow_pos _) hn).symm

/-- Settles O32: the loop in closed form, which needs neither the decomposition nor the range of the witness. -/
theorem trialClosedForm : Obligations.TrialClosedForm := by
  unfold Obligations.TrialClosedForm
  exact ⟨fun n s r a h5 _ _ _ _ _ => trialPasses_iff (by omega) s r a, by decide, by decide, by decide⟩

/-- Settles O34: the bound of the draw, the verdict for the witness drawn, and a source with the answer `a - 2` lined up. -/
theorem witnessRange : Obligations.WitnessRange := by
  unfold Obligations.WitnessRange
  intro t h5
  refine ⟨by omega, fun src => ?_, fun a h2 ha => ?_⟩
  · have hlt : (src.draw (.below (t.n - 3))).1 < t.n - 3 := src.draw_answer_lt _ (by simp only [Request.bound]; omega)
    exact ⟨runTrial_source t src, by omega, by omega, runTrial_failed_iff t src⟩
  · have hlt : a - 2 < (Request.below (t.n - 3)).bound := by simp only [Request.bound]; omega
    refine ⟨{ ready := true, seed := 0, answers := [a - 2], log := [] }, ?_⟩
    rw [Source.draw_of_answers _ _ (a - 2) [] rfl hlt]
    omega

/-- Settles O33: natural subtraction stops at 0, bit 12 of `PARAM` is the offset, and no trial means no draw. -/
theorem trialCountSaturates : Obligations.TrialCountSaturates := by
  unfold Obligations.TrialCountSaturates
  refine ⟨fun s => ?_, fun s hi => ?_, fun s ho hi => ?_, fun s => ?_, execIsprime_vacuous⟩
  · simp only [State.trialCount, Spec.trialCount]
    omega
  · simp [State.trialCount, hi]
  · simp [State.trialCount, ho, hi]
  · have ho := s.params.trialOffset.isLt
    rw [State.readAt, Params.word_toNat, Spec.paramValue]
    omega

end Sys2Proof.Machine
end

section
/-! SUPPORT. The words of the two rows that draw (spec/30_encoding.md R73), and that a word which does not decode lies in no row
(R75). -/

namespace Sys2Proof

/-- A word of the row `ISPRIME` is that command (30_encoding R73). -/
theorem decode_of_isprime_row {w : Word} (h : w &&& 0xF03FFFFF#32 = 0x40000000#32) :
    decode w = .ok (.isprime (Spec.regAt w 25) (Spec.regAt w 22)) := by
  have hfields : (unpack w).masked ⟨.allOnes 4, 0, 0, .allOnes 3, .allOnes 3, .allOnes 16⟩ = ⟨4, 0, 0, 0, 0, 0⟩ :=
    masked_of_word_and_mask h
  simp only [Fields.masked, BitVec.and_allOnes, Fields.mk.injEq] at hfields
  obtain ⟨hop, -, -, hrs2, hrs3, himm⟩ := hfields
  simp only [← selector_extractLsb', decode, decodeFields, hop, hrs2, hrs3, himm]
  rfl

/-- A word of the row `GENPRIME` is that command (30_encoding R73). -/
theorem decode_of_genprime_row {w : Word} (h : w &&& 0xF1FF0000#32 = 0x50000000#32) :
    decode w = .ok (.genprime (Spec.regAt w 25) (w.extractLsb' 0 16)) := by
  have hfields : (unpack w).masked ⟨.allOnes 4, 0, .allOnes 3, .allOnes 3, .allOnes 3, 0⟩ = ⟨5, 0, 0, 0, 0, 0⟩ :=
    masked_of_word_and_mask h
  simp only [Fields.masked, BitVec.and_allOnes, Fields.mk.injEq] at hfields
  obtain ⟨hop, -, hrs1, hrs2, hrs3, -⟩ := hfields
  simp only [← selector_extractLsb', decode, decodeFields, hop, hrs1, hrs2, hrs3]
  rfl

/-- No command, no row: each row's words decode (30_encoding R73, R75). -/
theorem noRow_of_decode_error {w : Word} {e : IllegalWord} (h : decode w = .error e) : Spec.NoRow w := by
  refine ⟨fun hrow => ?_, fun hrow => ?_, fun hrow => ?_, fun hrow => ?_, fun hrow => ?_⟩
  · cases h.symm.trans (decode_of_gcd_row hrow)
  · cases h.symm.trans (decode_of_modinv_row hrow)
  · cases h.symm.trans (decode_of_powmod_row hrow)
  · cases h.symm.trans (decode_of_isprime_row hrow)
  · cases h.symm.trans (decode_of_genprime_row hrow)

end Sys2Proof
end

section
/-! SUPPORT. The code a turn of a command leaves in `ERR` (spec/60_exceptions.md R160 to R163): what a turn that reports a fault has
done, and the code of a command that begins. -/

namespace Sys2Proof.Machine

/-- A turn that leaves a code where there was none is the fault entry and nothing else: whatever draws ends with `ERR` 0
(60_exceptions R163). -/
theorem engineTurn_raise_of_err {s t : State} (h : engineTurn s = .next t) (he : s.err = 0) (hf : t.err ≠ 0) :
    ∃ f, t = s.raise f := by
  obtain ⟨-, rfl⟩ | ⟨-, e, -, rfl⟩ | ⟨-, i, -, hi⟩ := engineTurn_cases h
  · exact absurd he hf
  · exact ⟨.illegal, rfl⟩
  · obtain ⟨src, v, -, rfl⟩ | ⟨rd, rs1, rs2, -, -, rfl⟩ | ⟨f, -, rfl⟩ | ⟨src, test, -, -, rfl⟩ := exec_cases hi
    · exact absurd rfl hf
    · exact absurd rfl hf
    · exact ⟨f, rfl⟩
    · exact absurd he hf

/-- A command that has passed its checks reports no fault (60_exceptions R161). -/
theorem pursue_err {next : Option Trials → Source → Progress × Source} {p : Progress} {rd : Reg} {s t : State}
    (h : pursue next p rd s = .next t) (he : s.err = 0) : t.err = 0 := by
  obtain ⟨-, hp⟩ | ⟨-, v, src, -, hp⟩ | ⟨-, test, src, -, hp⟩ := pursue_cases next p rd s <;> rw [hp] at h <;> cases h
  · rfl
  · exact he

/-- A resumed command reports no fault (60_exceptions R161). -/
theorem exec_begun_err {i : Instr} {s t : State} {test : Option Trials} (hi : draws i = true) (hp : s.phase = .begun test)
    (he : s.err = 0) (h : exec i s = .next t) : t.err = 0 := by
  cases i with
  | gcd | modinv | powmod => cases hi
  | isprime rd rs1 =>
    rw [execIsprime_begun rd rs1 s test hp] at h
    exact pursue_err h he
  | genprime rd bits =>
    rw [execGenprime_begun rd bits s test hp] at h
    exact pursue_err h he

/-- The code a command reports when it begins, 0 for none: the first that applies in the order of 60_exceptions R162. -/
def beginErr (s : State) : Instr → BitVec 4
  | .gcd .. => 0
  | .modinv _ _ rs2 => if s.getX rs2 = 0 then 2 else 0
  | .powmod _ _ _ rs3 => if s.getX rs3 = 0 then 2 else 0
  | .isprime .. => if s.source.ready = false then 4 else 0
  | .genprime _ bits =>
    if bits.toNat = 0 ∨ Spec.opw s ≤ bits.toNat then 3 else if s.source.ready = false then 4 else 0

/-- A command that begins ends its first turn with that code (60_exceptions R161, R162). -/
theorem exec_fresh_err {i : Instr} {s t : State} (hp : s.phase = .fresh) (he : s.err = 0) (h : exec i s = .next t) :
    t.err = beginErr s i := by
  cases i with
  | gcd rd rs1 rs2 => cases h; rfl
  | modinv rd rs1 rs2 =>
    by_cases hm : s.getX rs2 = 0
    · cases (execModinv_of_zero rd rs1 rs2 s hm).symm.trans h
      exact (if_pos hm).symm
    · cases (execModinv_of_ne_zero rd rs1 rs2 s hm).symm.trans h
      exact (if_neg hm).symm
  | powmod rd rs1 rs2 rs3 =>
    by_cases hm : s.getX rs3 = 0
    · cases (execPowmod_of_zero rd rs1 rs2 rs3 s hm).symm.trans h
      exact (if_pos hm).symm
    · cases (execPowmod_of_ne_zero rd rs1 rs2 rs3 s hm).symm.trans h
      exact (if_neg hm).symm
  | isprime rd rs1 =>
    cases hr : s.source.ready with
    | false =>
      cases (execIsprime_notReady rd rs1 s hp hr).symm.trans h
      exact (if_pos hr).symm
    | true =>
      rw [execIsprime_fresh rd rs1 s hp hr] at h
      simp [pursue_err h he, beginErr, hr]
  | genprime rd bits =>
    by_cases hb : bits.toNat = 0 ∨ s.params.opw < bits.toNat + 1
    · cases (execGenprime_range rd bits s hp hb).symm.trans h
      exact (if_pos (hb.imp_right Nat.le_of_lt_succ)).symm
    · have hb' : ¬(bits.toNat = 0 ∨ Spec.opw s ≤ bits.toNat) := mt (Or.imp_right Nat.lt_succ_of_le) hb
      cases hr : s.source.ready with
      | false =>
        cases (execGenprime_notReady rd bits s hp hb hr).symm.trans h
        simp [beginErr, hb', hr, FaultCode.code]
      | true =>
        rw [execGenprime_fresh rd bits s hp hb hr] at h
        simp [pursue_err h he, beginErr, hb', hr]

/-! Each code that a command can begin with, and the commands that do (60_exceptions R161). -/

theorem beginErr_ne_illegal (s : State) (i : Instr) : beginErr s i ≠ 1 := by
  cases i with
  | gcd => simp [beginErr]
  | modinv | powmod | isprime | genprime => simp only [beginErr]; split_ifs <;> decide

theorem beginErr_le (s : State) (i : Instr) : (beginErr s i).toNat ≤ 4 := by
  cases i with
  | gcd => simp [beginErr]
  | modinv | powmod | isprime | genprime => simp only [beginErr]; split_ifs <;> decide

theorem beginErr_eq_divzero (s : State) (i : Instr) :
    beginErr s i = 2 ↔ (∃ rd rs1 rs2, i = .modinv rd rs1 rs2 ∧ s.getX rs2 = 0) ∨
      (∃ rd rs1 rs2 rs3, i = .powmod rd rs1 rs2 rs3 ∧ s.getX rs3 = 0) := by
  cases i with
  | gcd | modinv | powmod => simp [beginErr]
  | isprime | genprime => simp only [beginErr]; split_ifs <;> simp

theorem beginErr_eq_range (s : State) (i : Instr) :
    beginErr s i = 3 ↔ ∃ rd bits, i = .genprime rd bits ∧ (bits.toNat = 0 ∨ Spec.opw s ≤ bits.toNat) := by
  cases i with
  | gcd => simp [beginErr]
  | modinv | powmod | isprime => simp only [beginErr]; split_ifs <;> simp
  | genprime rd bits => simp only [beginErr]; split_ifs <;> simp [*]

theorem beginErr_eq_rngnrdy (s : State) (i : Instr) :
    beginErr s i = 4 ↔ s.source.ready = false ∧ ((∃ rd rs1, i = .isprime rd rs1) ∨
      (∃ rd bits, i = .genprime rd bits ∧ bits.toNat ≠ 0 ∧ bits.toNat < Spec.opw s)) := by
  cases i with
  | gcd | isprime => simp [beginErr]
  | modinv | powmod => simp only [beginErr]; split_ifs <;> simp
  | genprime rd bits =>
    have hrange : bits.toNat ≠ 0 ∧ bits.toNat < Spec.opw s ↔ ¬(bits.toNat = 0 ∨ Spec.opw s ≤ bits.toNat) := by omega
    simp only [beginErr]
    split_ifs <;> simp [*]

end Sys2Proof.Machine
end

section
/-! SUPPORT. The proofs of the faults' own statements (spec/60_exceptions.md R161 to R163). -/

namespace Sys2Proof.Machine

/-- Settles O51: a turn that leaves a code is the fault entry, from the state in which the engine moves. -/
theorem faultsArePrecise : Obligations.FaultsArePrecise := by
  unfold Obligations.FaultsArePrecise
  intro s u t hruns he h hf
  have hu : u.err = 0 := by
    obtain ⟨sched, e, k, rfl⟩ := engineRuns_state hruns
    exact he
  rw [step_of_engineRuns hruns] at h
  obtain ⟨f, rfl⟩ := engineTurn_raise_of_err h hu hf
  exact ⟨f, rfl⟩

/-- The step in which a latched command begins leaves the code it begins with (60_exceptions R161, R162). -/
theorem step_fresh_err {s u t : State} {i : Instr} (hruns : Spec.EngineRuns s u) (hp : s.phase = .fresh) (he : s.err = 0)
    (hd : decode s.cmd = .ok i) (h : step s = .next t) : t.err = beginErr s i := by
  rw [step_of_decode_ok hruns hd] at h
  have hbegin : u.phase = .fresh → u.err = 0 → t.err = beginErr u i := fun hp he => exec_fresh_err hp he h
  obtain ⟨sched, e, k, rfl⟩ := engineRuns_state hruns
  exact hbegin hp he

/-- A running command that goes on is one that draws (10_state R30). -/
theorem State.Resumable.decodes {s : State} {test : Option Trials} (h : s.Resumable test) :
    ∃ i, decode s.cmd = .ok i ∧ draws i = true := by
  obtain ⟨rd, rs1, -, hd, -⟩ | ⟨rd, bits, hd, -⟩ := h
  · exact ⟨_, hd, rfl⟩
  · exact ⟨_, hd, rfl⟩

/-- Settles O52: a word of no row is `ILLEGAL`; a command that begins leaves its code, and one that goes on has no fault left to
report. -/
theorem faultConditions : Obligations.FaultConditions := by
  unfold Obligations.FaultConditions
  refine ⟨fun s u t hruns hp he h => ?begins, fun s u t test hinv hruns hp h => ?goesOn⟩
  case begins =>
    cases hd : decode s.cmd with
    | error e =>
      cases (step_of_decode_error hruns hd).symm.trans h
      simp [Spec.faulted, noRow_of_decode_error hd]
    | ok i =>
      rw [step_fresh_err hruns hp he hd h]
      simp only [Except.ok.injEq]
      exact ⟨iff_of_false (beginErr_ne_illegal s i) (not_noRow_of_decode hd), beginErr_eq_divzero s i, beginErr_eq_range s i,
        beginErr_eq_rngnrdy s i, beginErr_le s i⟩
  case goesOn =>
    obtain ⟨-, ⟨-, -, hzero⟩, hengine⟩ := hinv
    obtain ⟨hb, -, hresume⟩ : s.busy = true ∧ s.source.ready = true ∧ s.Resumable test := by
      simpa only [State.EngineConsistent, hp] using hengine
    obtain ⟨i, hd, hi⟩ := hresume.decodes
    rw [step_of_decode_ok hruns hd] at h
    have hgo : u.phase = .begun test → u.err = 0 → t.err = 0 := fun hp he => exec_begun_err hi hp he h
    obtain ⟨sched, e, k, rfl⟩ := engineRuns_state hruns
    exact hgo hp (hzero hb)

end Sys2Proof.Machine
end

section
/-! SUPPORT. The host's reset (spec/10_state.md R43, spec/70_reset_and_hazards.md R185, R186). -/

namespace Sys2Proof.Machine

/-- The host's turn of a reset, in any state: no check of `BUSY` or of the engine's phase stands before it
(70_reset_and_hazards R185). -/
theorem step_of_reset {s s' : State} (h : Spec.NextTurn s (.host .reset) s') : step s = .next s'.hostReset :=
  step_of_specNextTurn h

/-- A reset leaves the plan as it is: what was to come next still comes next. -/
theorem nextTurn_hostReset {s s' : State} {turn : Turn} (h : Spec.NextTurn s turn s') :
    Spec.NextTurn s.hostReset turn s'.hostReset := by
  obtain ⟨rest, hs, rfl⟩ | ⟨hs, n, he, ht, rfl⟩ := h
  · exact .inl ⟨rest, hs, rfl⟩
  · exact .inr ⟨hs, n, he, ht, rfl⟩

/-- Right after a reset a write to `CMD` is an accept step, whatever was running before (10_state R31, R43). -/
theorem step_hostReset_accept {s s' : State} {w : Word} (h : Spec.NextTurn s (.host (.write 0 w)) s') :
    step s.hostReset = .next (s'.hostReset.accept w) :=
  step_accept ⟨nextTurn_hostReset h, rfl, by decide⟩ s.hostReset_busy

/-- Settles O21: the step of a reset, the accept step after it, and the values of `State.reset`. -/
theorem resetAction : Obligations.ResetAction := by
  unfold Obligations.ResetAction
  refine ⟨fun s s' h => ?step, fun s s' s'' w h hw => ?accept, State.getX_reset, rfl, rfl, rfl, rfl⟩
  case step => exact step_of_reset h
  case accept => exact ⟨_, run_two (step_of_reset h) (step_hostReset_accept hw), rfl, rfl, rfl, rfl⟩

end Sys2Proof.Machine
end

section
/-! SUPPORT. A step by the agent that takes it (spec/00_scope.md R6, R10), and what it then does to the architectural state
(spec/10_state.md R20): one case for each writer of the inventory. -/

namespace Sys2Proof.Machine

/-- What a step that answers a next state can do, by the agent that moves; the two ways in which the engine comes to move are
one case. -/
theorem step_agents {s t : State} (h : step s = .next t) :
    (s.busy = false ∧ t = s) ∨
    (∃ a sched e, Spec.NextTurn s (.host a) { s with schedule := sched, endless := e } ∧
      hostTurn a { s with schedule := sched, endless := e } = .next t) ∨
    (Spec.EngineMoves s ∧ ∃ sched e k, engineTurn { s with schedule := sched, endless := e, pace := k } = .next t) ∨
    (∃ a sched e, Spec.NextTurn s (.source a) { s with schedule := sched, endless := e } ∧
      t = sourceTurn a { s with schedule := sched, endless := e }) := by
  obtain ⟨-, hb, ht⟩ | ⟨hn, -, he⟩ | ⟨a, s', hn, ha⟩ | ⟨k, s', hn, he⟩ | ⟨a, s', hn, ht⟩ := step_cases h
  · exact .inl ⟨hb, ht⟩
  · exact .inr (.inr (.inl ⟨.inl (nextTurn_none.1 hn), s.schedule, s.endless, _, he⟩))
  all_goals obtain ⟨sched, e, rfl⟩ := nextTurn_state hn
  · exact .inr (.inl ⟨a, sched, e, nextTurn_some.1 hn, ha⟩)
  · exact .inr (.inr (.inl ⟨.inr ⟨k, _, nextTurn_some.1 hn⟩, sched, e, k, he⟩))
  · exact .inr (.inr (.inr ⟨a, sched, e, nextTurn_some.1 hn, ht⟩))

/-! The word index of a location that stands at one word only (20_memory R51). -/

theorem index_of_locate_cmd {index : Nat} (h : locate index = some .cmd) : index = 0x0000 / 4 := by
  unfold locate at h
  split_ifs at h <;> cases h
  assumption

theorem locate_eq_status {index : Nat} : locate index = some .status ↔ index = 0x0004 / 4 := by
  refine ⟨fun h => ?_, fun h => h ▸ rfl⟩
  unfold locate at h
  split_ifs at h <;> cases h
  assumption

theorem index_of_locate_iter {index : Nat} (h : locate index = some .iter) : index = 0x0008 / 4 := by
  unfold locate at h
  split_ifs at h <;> cases h
  assumption

/-- What a step does to the architectural state (10_state R20): one case for each writer. The model's own bookkeeping is free,
but for the record of faults. -/
inductive ArchStep (s : State) : State → Prop where
  /-- No architectural state is written: by a read, by a turn of the source, by an idle engine, by a command that goes on, by a
  write to a word that takes none. -/
  | keeps (phase : Phase) (src : Source) (sched : List Turn) (e : Option Nat) (k : Nat) (reads : List Word) :
      ArchStep s { s with phase := phase, source := src, schedule := sched, endless := e, pace := k, reads := reads }
  | resets (sched : List Turn) (e : Option Nat) (hr : Spec.ResetTaken s) :
      ArchStep s (State.hostReset { s with schedule := sched, endless := e })
  | dropsWrite (sched : List Turn) (e : Option Nat) (hb : s.busy = true)
      (hn : ∃ index v s', index ≠ 0x0004 / 4 ∧ Spec.NextTurn s (.host (.write index v)) s') :
      ArchStep s (State.dropWrite { s with schedule := sched, endless := e })
  | writesStatus (sched : List Turn) (e : Option Nat) (v : Word)
      (hn : ∃ s', Spec.NextTurn s (.host (.write (0x0004 / 4) v)) s') :
      ArchStep s { s with schedule := sched, endless := e, wrerr := s.wrerr && !v.getLsbD 3 }
  | accepts (sched : List Turn) (e : Option Nat) (w : Word) (hb : s.busy = false) (ha : Spec.AcceptTaken s) :
      ArchStep s (State.accept { s with schedule := sched, endless := e } w)
  | writesIter (sched : List Turn) (e : Option Nat) (v : Word) (hb : s.busy = false)
      (hn : ∃ s', Spec.NextTurn s (.host (.write (0x0008 / 4) v)) s') :
      ArchStep s { s with schedule := sched, endless := e, iter := v }
  | writesLimb (sched : List Turn) (e : Option Nat) (i : Reg) (value : Nat) (hb : s.busy = false)
      (hn : ∃ index v s' j, Spec.NextTurn s (.host (.write index v)) s' ∧ locate index = some (.limb i j) ∧ j < Spec.limbs s) :
      ArchStep s (State.setX { s with schedule := sched, endless := e } i value)
  | completes (src : Source) (sched : List Turn) (e : Option Nat) (k : Nat) (c : Instr) (value : Nat)
      (hm : Spec.EngineMoves s) (hb : s.busy = true) (hd : decode s.cmd = .ok c) :
      ArchStep s (State.complete { s with source := src, schedule := sched, endless := e, pace := k } (Spec.writes c) value)
  | completesModinv (sched : List Turn) (e : Option Nat) (k : Nat) (rd rs1 rs2 : Reg) (value : Nat) (noinv : Bool)
      (hm : Spec.EngineMoves s) (hb : s.busy = true) (hd : decode s.cmd = .ok (.modinv rd rs1 rs2)) :
      ArchStep s (State.completeFlag { s with schedule := sched, endless := e, pace := k } rd value noinv)
  | raises (sched : List Turn) (e : Option Nat) (k : Nat) (f : FaultCode) (hm : Spec.EngineMoves s) (hb : s.busy = true) :
      ArchStep s (State.raise { s with schedule := sched, endless := e, pace := k } f)

theorem archStep_of_write {s s' : State} {index : Nat} {v : Word} {l : Location}
    (hn : Spec.NextTurn s (.host (.write index v)) s') (hl : locate index = some l) : ArchStep s (s'.writeAt v l) := by
  obtain ⟨sched, e, rfl⟩ := specNextTurn_state hn
  obtain ⟨rfl, h⟩ | ⟨hne, hb, h⟩ | ⟨rfl, hb, h⟩ | ⟨rfl, hb, h⟩ | ⟨i, j, rfl, hj, hb, h⟩ | ⟨-, -, h⟩ :=
    writeAt_cases { s with schedule := sched, endless := e } v l <;> rw [h]
  · cases locate_eq_status.1 hl
    exact .writesStatus sched e v ⟨_, hn⟩
  · exact .dropsWrite sched e hb ⟨index, v, _, fun hi => hne (Option.some.inj (hl.symm.trans (locate_eq_status.2 hi))), hn⟩
  · cases index_of_locate_cmd hl
    exact .accepts sched e v hb ⟨v, _, hn, hb⟩
  · cases index_of_locate_iter hl
    exact .writesIter sched e v hb ⟨_, hn⟩
  · exact .writesLimb sched e i _ hb ⟨index, v, _, j, hn, hl, hj⟩
  · exact .keeps s.phase s.source sched e s.pace s.reads

theorem archStep_of_exec {s t : State} {i : Instr} {sched : List Turn} {e : Option Nat} {k : Nat}
    (hm : Spec.EngineMoves s) (hb : s.busy = true) (hd : decode s.cmd = .ok i)
    (hx : exec i { s with schedule := sched, endless := e, pace := k } = .next t) : ArchStep s t := by
  obtain ⟨src, v, -, rfl⟩ | ⟨rd, rs1, rs2, rfl, -, rfl⟩ | ⟨f, -, rfl⟩ | ⟨src, test, -, -, rfl⟩ := exec_cases hx
  · rw [destination_eq_writes]
    exact .completes src sched e k i v hm hb hd
  · exact .completesModinv sched e k rd rs1 rs2 _ _ hm hb hd
  · exact .raises sched e k f hm hb
  · exact .keeps (.begun test) src sched e k s.reads

/-- Every step is one of these writers' (10_state R20). -/
theorem archStep {s t : State} (h : step s = .next t) : ArchStep s t := by
  obtain ⟨-, rfl⟩ | ⟨a, sched, e, hn, ha⟩ | ⟨hm, sched, e, k, he⟩ | ⟨a, sched, e, -, rfl⟩ := step_agents h
  case inl => exact .keeps t.phase t.source t.schedule t.endless t.pace t.reads
  case inr.inl =>
    obtain ⟨rfl, rfl⟩ | ⟨index, l, rfl, -, rfl⟩ | ⟨index, v, l, rfl, hl, rfl⟩ := hostTurn_cases ha
    · exact .resets sched e ⟨_, hn⟩
    · exact .keeps s.phase s.source sched e s.pace _
    · exact archStep_of_write hn hl
  case inr.inr.inl =>
    obtain ⟨-, rfl⟩ | ⟨hb, w, -, rfl⟩ | ⟨hb, i, hd, hx⟩ := engineTurn_cases he
    · exact .keeps s.phase s.source sched e k s.reads
    · exact .raises sched e k .illegal hm hb
    · exact archStep_of_exec hm hb hd hx
  case inr.inr.inr => exact .keeps _ _ sched e s.pace s.reads

end Sys2Proof.Machine
end

section
/-! SUPPORT. The proofs of the statements about every step of every agent (spec/10_state.md R20, R32, R33, 60_exceptions.md R164),
each read off the cases of `ArchStep`. -/

namespace Sys2Proof.Machine

theorem FaultCode.code_ne_zero (f : FaultCode) : f.code ≠ 0 := by cases f <;> decide

theorem FaultCode.code_le (f : FaultCode) : f.code.toNat ≤ 4 := by cases f <;> decide

/-- Settles O47: the writers that leave the unit busy reach `WRERR` alone. -/
theorem nothingChangesWhileBusy : Obligations.NothingChangesWhileBusy := by
  unfold Obligations.NothingChangesWhileBusy
  intro s t h hs ht
  cases archStep h with
  | keeps => exact ⟨rfl, rfl, rfl, rfl, rfl, rfl, rfl, .inl rfl⟩
  | dropsWrite sched e _ hn =>
    obtain ⟨index, v, s', -, hn⟩ := hn
    exact ⟨rfl, rfl, rfl, rfl, rfl, rfl, rfl, .inr ⟨index, v, s', hn⟩⟩
  | writesStatus sched e v hn =>
    obtain ⟨s', hn⟩ := hn
    exact ⟨rfl, rfl, rfl, rfl, rfl, rfl, rfl, .inr ⟨_, v, s', hn⟩⟩
  | accepts _ _ _ hb | writesIter _ _ _ hb | writesLimb _ _ _ _ hb => simp [hb] at hs
  | resets | completes | completesModinv | raises => cases ht

/-- The record grows where a command ends with a code, and only there (60_exceptions R164). -/
theorem ArchStep.faults {s t : State} (h : ArchStep s t) :
    (s.busy = true ∧ t.busy = false ∧ t.err ≠ 0 ∧ ∃ f, t.faults = f :: s.faults ∧ f.code = t.err ∧ Spec.EngineMoves s) ∨
    (¬(s.busy = true ∧ t.busy = false ∧ t.err ≠ 0) ∧ t.faults = s.faults) := by
  cases h with
  | raises sched e k f hm hb => exact .inl ⟨hb, rfl, f.code_ne_zero, f, rfl, rfl, hm⟩
  | keeps | dropsWrite | writesStatus | writesIter | writesLimb =>
    exact .inr ⟨fun ⟨hs, ht, _⟩ => Bool.false_ne_true (ht.symm.trans hs), rfl⟩
  | accepts => exact .inr ⟨fun ⟨_, ht, _⟩ => Bool.false_ne_true ht.symm, rfl⟩
  | resets | completes | completesModinv => exact .inr ⟨fun ⟨_, _, hf⟩ => hf rfl, rfl⟩

/-- Settles O53: the cases of the record. -/
theorem faultRecord : Obligations.FaultRecord := by
  unfold Obligations.FaultRecord
  intro s t h
  obtain ⟨hs, ht, hf, hgrows⟩ | ⟨hno, hkeeps⟩ := (archStep h).faults
  · rw [if_pos ⟨hs, ht, hf⟩]
    exact hgrows
  · rw [if_neg hno]
    exact hkeeps

/-- Settles O49: of the writers that end a command, the reset is excluded; the other three are completion steps. -/
theorem completionIsOneStep : Obligations.CompletionIsOneStep := by
  unfold Obligations.CompletionIsOneStep
  intro s t h hs ht hno
  cases archStep h with
  | resets _ _ hr => exact absurd hr hno
  | completes src sched e k c value _ _ hd =>
    exact ⟨rfl, Nat.zero_le _, rfl, rfl, rfl, fun hf => absurd rfl hf, fun _ => ⟨c, value, hd, rfl⟩⟩
  | completesModinv sched e k rd rs1 rs2 value noinv _ _ hd =>
    exact ⟨rfl, Nat.zero_le _, rfl, rfl, rfl, fun hf => absurd rfl hf, fun _ => ⟨_, value, hd, rfl⟩⟩
  | raises sched e k f => exact ⟨rfl, f.code_le, rfl, rfl, rfl, fun _ => ⟨rfl, rfl⟩, fun hz => absurd hz f.code_ne_zero⟩
  | keeps | dropsWrite | writesStatus | writesIter | writesLimb => exact absurd (hs.symm.trans ht) Bool.noConfusion
  | accepts => cases ht

/-! The writers of each piece of the state (10_state R20). -/

namespace ArchStep

variable {s t : State}

theorem writers_x (h : ArchStep s t) (i : Reg) (hne : t.getX i ≠ s.getX i) : Spec.ResetTaken s ∨
    (s.busy = false ∧ ∃ index v s' j, Spec.NextTurn s (.host (.write index v)) s' ∧ locate index = some (.limb i j) ∧
      j < Spec.limbs s) ∨
    (Spec.CompletionTaken s t ∧ t.err = 0 ∧ ∃ c, decode s.cmd = .ok c ∧ Spec.writes c = i) := by
  cases h with
  | resets _ _ hr => exact .inl hr
  | writesLimb sched e i' value hb hn =>
    rw [State.getX_setX] at hne
    obtain rfl : i = i' := by_contra fun hi => hne (if_neg hi)
    exact .inr (.inl ⟨hb, hn⟩)
  | completes src sched e k c value hm hb hd =>
    rw [State.getX_complete] at hne
    exact .inr (.inr ⟨⟨hm, hb, rfl, rfl⟩, rfl, c, hd, by_contra fun hi => hne (if_neg (Ne.symm hi))⟩)
  | completesModinv sched e k rd rs1 rs2 value noinv hm hb hd =>
    rw [State.getX_completeFlag] at hne
    exact .inr (.inr ⟨⟨hm, hb, rfl, rfl⟩, rfl, _, hd, by_contra fun hi => hne (if_neg (Ne.symm hi))⟩)
  | _ => exact absurd rfl hne

theorem writers_iter (h : ArchStep s t) (hne : t.iter ≠ s.iter) : Spec.ResetTaken s ∨
    (s.busy = false ∧ ∃ s', Spec.NextTurn s (.host (.write (0x0008 / 4) t.iter)) s') := by
  cases h with
  | resets _ _ hr => exact .inl hr
  | writesIter _ _ _ hb hn => exact .inr ⟨hb, hn⟩
  | _ => exact absurd rfl hne

theorem writers_status (h : ArchStep s t) (hne : t.busy ≠ s.busy ∨ t.done ≠ s.done ∨ t.err ≠ s.err) :
    Spec.ResetTaken s ∨ (Spec.AcceptTaken s ∧ t.busy = true ∧ t.done = false ∧ t.err = 0) ∨ Spec.CompletionTaken s t := by
  cases h with
  | resets _ _ hr => exact .inl hr
  | accepts _ _ _ _ ha => exact .inr (.inl ⟨ha, rfl, rfl, rfl⟩)
  | completes _ _ _ _ _ _ hm hb => exact .inr (.inr ⟨hm, hb, rfl, rfl⟩)
  | completesModinv _ _ _ _ _ _ _ _ hm hb => exact .inr (.inr ⟨hm, hb, rfl, rfl⟩)
  | raises _ _ _ _ hm hb => exact .inr (.inr ⟨hm, hb, rfl, rfl⟩)
  | keeps | dropsWrite | writesStatus | writesIter | writesLimb => simp at hne

theorem writers_noinv (h : ArchStep s t) (hne : t.noinv ≠ s.noinv) : Spec.ResetTaken s ∨
    (Spec.CompletionTaken s t ∧ t.err = 0 ∧ ∃ rd rs1 rs2, decode s.cmd = .ok (.modinv rd rs1 rs2)) := by
  cases h with
  | resets _ _ hr => exact .inl hr
  | completesModinv _ _ _ rd rs1 rs2 _ _ hm hb hd => exact .inr ⟨⟨hm, hb, rfl, rfl⟩, rfl, rd, rs1, rs2, hd⟩
  | _ => exact absurd rfl hne

theorem writers_wrerr (h : ArchStep s t) (hne : t.wrerr ≠ s.wrerr) : Spec.ResetTaken s ∨
    (s.busy = true ∧ t.wrerr = true ∧ ∃ index v s', index ≠ 0x0004 / 4 ∧ Spec.NextTurn s (.host (.write index v)) s') ∨
    (t.wrerr = false ∧ ∃ (v : Word) (s' : State), v.getLsbD 3 = true ∧
      Spec.NextTurn s (.host (.write (0x0004 / 4) v)) s') := by
  cases h with
  | resets _ _ hr => exact .inl hr
  | dropsWrite _ _ hb hn => exact .inr (.inl ⟨hb, rfl, hn⟩)
  | writesStatus sched e v hn =>
    obtain ⟨s', hn⟩ := hn
    have hv : v.getLsbD 3 = true := by
      by_contra hv
      exact hne (by simp only [hv, Bool.not_false, Bool.and_true])
    exact .inr (.inr ⟨Bool.and_eq_false_imp.2 fun _ => by rw [hv, Bool.not_true], v, s', hv, hn⟩)
  | _ => exact absurd rfl hne

theorem writers_cmd (h : ArchStep s t) (hne : t.cmd ≠ s.cmd) : Spec.ResetTaken s ∨ Spec.AcceptTaken s := by
  cases h with
  | resets _ _ hr => exact .inl hr
  | accepts _ _ _ _ ha => exact .inr ha
  | _ => exact absurd rfl hne

end ArchStep

/-- Settles O48: the writers of each piece of the state. -/
theorem whoWritesWhat : Obligations.WhoWritesWhat := by
  unfold Obligations.WhoWritesWhat
  intro s t h
  have hs := archStep h
  refine ⟨hs.writers_x, hs.writers_iter, fun hne => ?busy, fun hne => ?done, hs.writers_noinv, hs.writers_wrerr,
    fun hne => ?err, hs.writers_cmd⟩
  case busy => exact (hs.writers_status (.inl hne)).imp_right (Or.imp_left fun ⟨ha, hb, _, _⟩ => ⟨ha, hb⟩)
  case done => exact (hs.writers_status (.inr (.inl hne))).imp_right (Or.imp_left fun ⟨ha, _, hd, _⟩ => ⟨ha, hd⟩)
  case err => exact (hs.writers_status (.inr (.inr hne))).imp_right (Or.imp_left fun ⟨ha, _, _, he⟩ => ⟨ha, he⟩)

end Sys2Proof.Machine
end

section
/-! SUPPORT. The draws of a command (spec/10_state.md R36, R42): what any number of them makes of the source, and the turns of the
two commands that draw, by the phase they start from. -/

namespace Sys2Proof.Machine

/-- `src'` is `src` after some draws: their answers taken, the draws in the history, the level and the seed kept. -/
def Source.DrawnTo (src src' : Source) : Prop :=
  ∃ new : List Draw, src' = { src with answers := src.answers.drop new.length, log := new ++ src.log }

namespace Source.DrawnTo

theorem refl (src : Source) : src.DrawnTo src := ⟨[], rfl⟩

theorem trans {src mid src' : Source} (h : src.DrawnTo mid) (h' : mid.DrawnTo src') : src.DrawnTo src' := by
  obtain ⟨new, rfl⟩ := h
  obtain ⟨new', rfl⟩ := h'
  exact ⟨new' ++ new, by simp [Nat.add_comm]⟩

theorem draw (src : Source) (q : Request) : src.DrawnTo (src.draw q).2 :=
  ⟨[{ request := q, answer := (src.draw q).1 }], by simp [Source.draw]⟩

theorem ready {src src' : Source} (h : src.DrawnTo src') : src'.ready = src.ready := by
  obtain ⟨new, rfl⟩ := h
  rfl

theorem seed {src src' : Source} (h : src.DrawnTo src') : src'.seed = src.seed := by
  obtain ⟨new, rfl⟩ := h
  rfl

end Source.DrawnTo

theorem isprimeDraw_drawnTo (n T : Nat) (test : Option Trials) (src : Source) :
    src.DrawnTo (isprimeDraw n T test src).2 := by
  cases test with
  | none => exact .refl src
  | some t => exact runTrial_source t src ▸ .draw src _

theorem genprimeDraw_source_none (bits T : Nat) (src : Source) :
    (genprimeDraw bits T none src).2 = (src.draw (.bits bits)).2 := by
  unfold genprimeDraw
  dsimp only
  split <;> rfl

theorem genprimeDraw_drawnTo (bits T : Nat) (test : Option Trials) (src : Source) :
    src.DrawnTo (genprimeDraw bits T test src).2 := by
  cases test with
  | none => exact genprimeDraw_source_none bits T src ▸ .draw src _
  | some t => exact runTrial_source t src ▸ .draw src _

/-- What a turn that answers a next state can do, with what every draw of the command keeps. -/
theorem pursue_next {next : Option Trials → Source → Progress × Source} {p : Progress} {rd : Reg} {s t : State}
    (P : Progress → Prop) (hnext : ∀ test src, P (.running test) → P (next test src).1)
    (hdraws : ∀ test (src : Source), src.DrawnTo (next test src).2) (hp : P p) (h : pursue next p rd s = .next t) :
    s.source.ready = true ∧ ∃ src, s.source.DrawnTo src ∧
      ((∃ v, P (.finished v) ∧ drive next s.pace p s.source = (.finished v, src) ∧
          t = { s with source := src }.complete rd v) ∨
        (∃ test, P (.running test) ∧ drive next s.pace p s.source = (.running test, src) ∧
          t = { s with source := src, phase := .begun test })) := by
  obtain ⟨hP, hsrc⟩ := drive_keeps next (fun p src => P p ∧ s.source.DrawnTo src)
    (fun test src ⟨hp, hs⟩ => ⟨hnext test src hp, hs.trans (hdraws test src)⟩) s.pace p s.source ⟨hp, .refl s.source⟩
  obtain ⟨-, he⟩ | ⟨hr, v, src, hd, he⟩ | ⟨hr, test, src, hd, he⟩ := pursue_cases next p rd s <;>
    rw [he] at h <;> cases h <;> rw [hd] at hP hsrc
  · exact ⟨hr, src, hsrc, .inl ⟨v, hP, hd, rfl⟩⟩
  · exact ⟨hr, src, hsrc, .inr ⟨test, hP, hd, rfl⟩⟩

/-- Where an engine turn of a command that draws starts from: its own first progress when it begins, the temporaries when it goes
on. -/
def StartsAt (first : Progress) (phase : Phase) (p : Progress) : Prop :=
  (phase = .fresh ∧ p = first) ∨ ∃ test, phase = .begun test ∧ p = .running test

/-- What a turn of `ISPRIME` that answers a next state can do (43_isprime R116). -/
theorem execIsprime_cases {rd rs1 : Reg} {s t : State} (h : exec (.isprime rd rs1) s = .next t) :
    (s.phase = .fresh ∧ s.source.ready = false ∧ t = s.raise .rngnrdy) ∨
    ∃ p, StartsAt (isprimeProgress (beginTest (s.getX rs1) s.trialCount)) s.phase p ∧
      pursue (isprimeDraw (s.getX rs1) s.trialCount) p rd s = .next t := by
  cases hp : s.phase with
  | fresh =>
    cases hr : s.source.ready with
    | false =>
      cases (execIsprime_notReady rd rs1 s hp hr).symm.trans h
      exact .inl ⟨rfl, rfl, rfl⟩
    | true => exact .inr ⟨_, .inl ⟨rfl, rfl⟩, (execIsprime_fresh rd rs1 s hp hr).symm.trans h⟩
  | begun test => exact .inr ⟨_, .inr ⟨test, rfl, rfl⟩, (execIsprime_begun rd rs1 s test hp).symm.trans h⟩
  | stranded => simp only [exec, execIsprime, hp, reduceCtorEq] at h

/-- What a turn of `GENPRIME` that answers a next state can do (44_genprime R131). -/
theorem execGenprime_cases {rd : Reg} {bits : BitVec 16} {s t : State} (h : exec (.genprime rd bits) s = .next t) :
    (s.phase = .fresh ∧ ∃ f, t = s.raise f) ∨
    ∃ p, StartsAt (.running none) s.phase p ∧ (s.phase = .fresh → 1 ≤ bits.toNat ∧ bits.toNat + 1 ≤ s.params.opw) ∧
      pursue (genprimeDraw bits.toNat s.trialCount) p rd s = .next t := by
  cases hp : s.phase with
  | fresh =>
    by_cases hb : bits.toNat = 0 ∨ s.params.opw < bits.toNat + 1
    · cases (execGenprime_range rd bits s hp hb).symm.trans h
      exact .inl ⟨rfl, _, rfl⟩
    · cases hr : s.source.ready with
      | false =>
        cases (execGenprime_notReady rd bits s hp hb hr).symm.trans h
        exact .inl ⟨rfl, _, rfl⟩
      | true =>
        exact .inr ⟨_, .inl ⟨rfl, rfl⟩, fun _ => by omega, (execGenprime_fresh rd bits s hp hb hr).symm.trans h⟩
  | begun test =>
    exact .inr ⟨_, .inr ⟨test, rfl, rfl⟩, fun hf => Phase.noConfusion hf, (execGenprime_begun rd bits s test hp).symm.trans h⟩
  | stranded => simp only [exec, execGenprime, hp, reduceCtorEq] at h

/-- What a turn of any command makes of the source: nothing, or the draws of a command that draws (10_state R36). -/
theorem exec_source {i : Instr} {s t : State} (h : exec i s = .next t) :
    t.source = s.source ∨ (draws i = true ∧ s.source.ready = true ∧ s.source.DrawnTo t.source) := by
  have drawn {next : Option Trials → Source → Progress × Source} {p : Progress} {rd : Reg}
      (hdraws : ∀ test (src : Source), src.DrawnTo (next test src).2) (hp : pursue next p rd s = .next t) :
      s.source.ready = true ∧ s.source.DrawnTo t.source := by
    obtain ⟨hr, src, hsrc, ⟨v, -, -, rfl⟩ | ⟨test, -, -, rfl⟩⟩ :=
      pursue_next (fun _ => True) (fun _ _ _ => trivial) hdraws trivial hp <;> exact ⟨hr, hsrc⟩
  cases i with
  | gcd | modinv | powmod =>
    obtain ⟨src, v, hsrc, rfl⟩ | ⟨rd, rs1, rs2, -, -, rfl⟩ | ⟨f, -, rfl⟩ | ⟨src, test, hdraws, -⟩ := exec_cases h
    · exact .inl (hsrc rfl)
    · exact .inl rfl
    · exact .inl rfl
    · cases hdraws
  | isprime rd rs1 =>
    obtain ⟨-, -, rfl⟩ | ⟨p, -, hp⟩ := execIsprime_cases h
    · exact .inl rfl
    · exact .inr ⟨rfl, drawn (isprimeDraw_drawnTo _ _) hp⟩
  | genprime rd bits =>
    obtain ⟨-, f, rfl⟩ | ⟨p, -, -, hp⟩ := execGenprime_cases h
    · exact .inl rfl
    · exact .inr ⟨rfl, drawn (genprimeDraw_drawnTo _ _) hp⟩

/-- Whatever the command, the source has made some draws, perhaps none. -/
theorem exec_drawnTo {i : Instr} {s t : State} (h : exec i s = .next t) : s.source.DrawnTo t.source := by
  obtain hsame | ⟨-, -, hdrawn⟩ := exec_source h
  · exact hsame ▸ .refl s.source
  · exact hdrawn

theorem commandDraws_of_draws {s : State} {i : Instr} (hd : decode s.cmd = .ok i) (hi : draws i = true) :
    Spec.CommandDraws s := by
  cases i with
  | gcd | modinv | powmod => cases hi
  | isprime rd rs1 => exact .inl ⟨rd, rs1, hd⟩
  | genprime rd bits => exact .inr ⟨rd, bits, hd⟩

/-- What a turn of the engine makes of the source (10_state R36). -/
theorem engineTurn_source {s t : State} (h : engineTurn s = .next t) :
    t.source = s.source ∨
      (s.busy = true ∧ s.source.ready = true ∧ Spec.CommandDraws s ∧ s.source.DrawnTo t.source) := by
  obtain ⟨-, rfl⟩ | ⟨-, w, -, rfl⟩ | ⟨hb, i, hd, hx⟩ := engineTurn_cases h
  · exact .inl rfl
  · exact .inl rfl
  · exact (exec_source hx).imp_right fun ⟨hi, hr, hdrawn⟩ => ⟨hb, hr, commandDraws_of_draws hd hi, hdrawn⟩

/-- A host write reaches neither the source nor the plan past the list (20_memory R54, R55). -/
theorem writeAt_outside (s : State) (v : Word) (l : Location) :
    (s.writeAt v l).source = s.source ∧ (s.writeAt v l).endless = s.endless := by
  obtain ⟨-, h⟩ | ⟨-, -, h⟩ | ⟨-, -, h⟩ | ⟨-, -, h⟩ | ⟨i, j, -, -, -, h⟩ | ⟨-, -, h⟩ := writeAt_cases s v l <;>
    rw [h] <;> exact ⟨rfl, rfl⟩

/-- No host action, a reset included, reaches the source (10_state R36, R43). -/
theorem hostTurn_source {a : HostAction} {s t : State} (h : hostTurn a s = .next t) : t.source = s.source := by
  obtain ⟨-, rfl⟩ | ⟨index, l, -, -, rfl⟩ | ⟨index, v, l, -, -, rfl⟩ := hostTurn_cases h
  · rfl
  · rfl
  · exact (writeAt_outside s v l).left

/-- Settles O56: each agent's turn, and what it makes of the source. -/
theorem parametersAndSourceKept : Obligations.ParametersAndSourceKept := by
  unfold Obligations.ParametersAndSourceKept
  intro s t h
  refine ⟨step_params h, fun a s' hn => ?host, ?source⟩
  case host =>
    have ha : hostTurn a s' = .next t := (step_of_specNextTurn hn).symm.trans h
    obtain ⟨sched, e, rfl⟩ := specNextTurn_state hn
    exact (hostTurn_source ha :)
  case source =>
    obtain ⟨-, rfl⟩ | ⟨a, sched, e, -, ha⟩ | ⟨hm, sched, e, k, he⟩ | ⟨a, sched, e, hn, rfl⟩ := step_agents h
    · exact .inl rfl
    · exact .inl (hostTurn_source ha :)
    · exact (engineTurn_source he).imp_right fun ⟨hb, hr, hc, hdrawn⟩ => .inr ⟨hm, hb, hr, hc, hdrawn⟩
    · exact .inr (.inl ⟨a, _, hn, rfl⟩)

end Sys2Proof.Machine
end

section
/-! SUPPORT. How a command that draws stands between two draws (spec/43_isprime.md R117, 44_genprime.md R131, R134): what holds of its
test and of its result, whatever the source answers. -/

namespace Sys2Proof.Machine

/-- The verdict, if it leaves a test under way, leaves one on `n`. -/
def Verdict.Tests (n T : Nat) (v : Verdict) : Prop := ∀ t, v = .more t → t.n = n ∧ t.UnderWay T

theorem beginTest_tests (n T : Nat) : (beginTest n T).Tests n T := by
  intro t h
  obtain ⟨rfl, hodd, h5, hT⟩ := beginTest_more n T t h
  exact ⟨rfl, hodd, h5, hT, Nat.le_refl T⟩

theorem Trials.UnderWay.runTrial_tests {t : Trials} {T : Nat} (ht : t.UnderWay T) (src : Source) :
    (runTrial t src).1.Tests t.n T := by
  intro t' h
  obtain ⟨rfl, hleft⟩ := runTrial_more t t' src h
  obtain ⟨hodd, h5, -, hT⟩ := ht
  exact ⟨rfl, hodd, h5, Nat.le_sub_one_of_lt hleft, (Nat.sub_le _ _).trans hT⟩

/-- An `ISPRIME` of `n` stands at a test of `n`, or ends with 1 or 0 (43_isprime R116). -/
def IsprimeAt (n T : Nat) : Progress → Prop
  | .finished v => v ≤ 1
  | .running none => False
  | .running (some t) => t.n = n ∧ t.UnderWay T

theorem Verdict.Tests.isprimeAt {n T : Nat} {v : Verdict} (h : v.Tests n T) : IsprimeAt n T (isprimeProgress v) := by
  cases v with
  | passed => exact Nat.le_refl 1
  | failed => exact Nat.zero_le 1
  | more t => exact h t rfl

theorem isprimeDraw_isprimeAt {n T : Nat} (test : Option Trials) (src : Source) (h : IsprimeAt n T (.running test)) :
    IsprimeAt n T (isprimeDraw n T test src).1 := by
  cases test with
  | none => exact h.elim
  | some t =>
    obtain ⟨rfl, ht⟩ := h
    exact (ht.runTrial_tests src).isprimeAt

/-- A candidate of `GENPRIME`: odd, of `bits + 1` bits (44_genprime R131, R134). -/
def IsCandidate (bits c : Nat) : Prop := 2 ^ bits < c ∧ c < 2 ^ (bits + 1) ∧ c % 2 = 1

/-- A `GENPRIME` stands at a fresh draw or at a test of a candidate, or ends with a candidate (44_genprime R131). -/
def GenprimeAt (bits T : Nat) : Progress → Prop
  | .finished c => IsCandidate bits c
  | .running none => True
  | .running (some t) => IsCandidate bits t.n ∧ t.UnderWay T

theorem Verdict.Tests.genprimeAt {bits c T : Nat} {v : Verdict} (hc : IsCandidate bits c) (h : v.Tests c T) :
    GenprimeAt bits T (genprimeProgress c v) := by
  cases v with
  | passed => exact hc
  | failed => trivial
  | more t =>
    obtain ⟨hn, ht⟩ := h t rfl
    exact ⟨hn ▸ hc, ht⟩

/-- An odd answer makes a candidate (44_genprime R131). -/
theorem isCandidate_of_odd {bits v : Nat} (hbits : 1 ≤ bits) (hv : v < 2 ^ bits) (hodd : v % 2 = 1) :
    IsCandidate bits (v + 2 ^ bits) := by
  obtain ⟨b, rfl⟩ := Nat.exists_eq_add_of_le' hbits
  have htop : 2 ^ (b + 1 + 1) = 2 ^ (b + 1) + 2 ^ (b + 1) := Nat.two_pow_succ _
  have heven : 2 ^ (b + 1) = 2 * 2 ^ b := Nat.pow_succ'
  exact ⟨by omega, by omega, by omega⟩

theorem draw_bits_lt (bits : Nat) (src : Source) : (src.draw (.bits bits)).1 < 2 ^ bits :=
  src.draw_answer_lt _ (Nat.two_pow_pos bits)

/-- A fresh draw that is odd begins the test of its candidate (44_genprime R131). -/
theorem genprimeDraw_odd {bits T : Nat} {src : Source} (h : (src.draw (.bits bits)).1 % 2 = 1) :
    genprimeDraw bits T none src =
      (genprimeProgress ((src.draw (.bits bits)).1 + 2 ^ bits) (beginTest ((src.draw (.bits bits)).1 + 2 ^ bits) T),
        (src.draw (.bits bits)).2) := by
  simp only [genprimeDraw, if_pos h]

/-- A fresh draw that is even is drawn again (44_genprime R131). -/
theorem genprimeDraw_even {bits T : Nat} {src : Source} (h : (src.draw (.bits bits)).1 % 2 ≠ 1) :
    genprimeDraw bits T none src = (.running none, (src.draw (.bits bits)).2) := by
  simp only [genprimeDraw, if_neg h]

theorem genprimeDraw_genprimeAt {bits T : Nat} (hbits : 1 ≤ bits) (test : Option Trials) (src : Source)
    (h : GenprimeAt bits T (.running test)) : GenprimeAt bits T (genprimeDraw bits T test src).1 := by
  cases test with
  | none =>
    by_cases hodd : (src.draw (.bits bits)).1 % 2 = 1
    · rw [genprimeDraw_odd hodd]
      exact (beginTest_tests _ T).genprimeAt (isCandidate_of_odd hbits (draw_bits_lt bits src) hodd)
    · rw [genprimeDraw_even hodd]
      trivial
  | some t =>
    obtain ⟨hc, ht⟩ := h
    exact (ht.runTrial_tests src).genprimeAt hc

end Sys2Proof.Machine
end

section
/-! SUPPORT. The invariant over each operation (spec/00_scope.md R7, 10_state.md R21, R27, R30). -/

namespace Sys2Proof.Machine

theorem State.Inv.wideInRange {s : State} (hs : s.Inv) : s.WideInRange := hs.left

theorem State.Inv.statusConsistent {s : State} (hs : s.Inv) : s.StatusConsistent := hs.right.left

/-- What the temporaries of a begun command say (10_state R30, R39). -/
theorem State.Inv.begun {s : State} {test : Option Trials} (hs : s.Inv) (hp : s.phase = .begun test) :
    s.busy = true ∧ s.source.ready = true ∧ s.Resumable test := by
  obtain ⟨-, -, he⟩ := hs
  simpa only [State.EngineConsistent, hp] using he

theorem State.Inv.stranded {s : State} (hs : s.Inv) (hp : s.phase = .stranded) : s.busy = true ∧ s.DrawingCommand := by
  obtain ⟨-, -, he⟩ := hs
  simpa only [State.EngineConsistent, hp] using he

theorem State.Inv.phase_of_idle {s : State} (hs : s.Inv) (hb : s.busy = false) : s.phase = .fresh := by
  cases hp : s.phase with
  | fresh => rfl
  | begun test =>
    obtain ⟨hbusy, -⟩ := hs.begun hp
    exact absurd (hb.symm.trans hbusy) Bool.noConfusion
  | stranded =>
    obtain ⟨hbusy, -⟩ := hs.stranded hp
    exact absurd (hb.symm.trans hbusy) Bool.noConfusion

theorem State.EngineConsistent.of_fresh {s : State} (hp : s.phase = .fresh) : s.EngineConsistent := by
  simp only [State.EngineConsistent, hp]

/-- The temporaries of a begun `ISPRIME` (10_state R30). -/
theorem State.Resumable.isprimeAt {s : State} {test : Option Trials} {rd rs1 : Reg} (h : s.Resumable test)
    (hd : decode s.cmd = .ok (.isprime rd rs1)) : IsprimeAt (s.getX rs1) s.trialCount (.running test) := by
  obtain ⟨rd', rs1', t, hd', rfl, hn, ht⟩ | ⟨rd', bits, hd', -⟩ := h <;> cases hd.symm.trans hd'
  exact ⟨hn, ht⟩

/-- The temporaries of a begun `GENPRIME` (10_state R30). -/
theorem State.Resumable.genprimeAt {s : State} {test : Option Trials} {rd : Reg} {bits : BitVec 16} (h : s.Resumable test)
    (hd : decode s.cmd = .ok (.genprime rd bits)) :
    1 ≤ bits.toNat ∧ bits.toNat + 1 ≤ s.params.opw ∧ GenprimeAt bits.toNat s.trialCount (.running test) := by
  obtain ⟨rd', rs1', t, hd', -⟩ | ⟨rd', bits', hd', h1, hopw, ht⟩ := h <;> cases hd.symm.trans hd'
  refine ⟨h1, hopw, ?_⟩
  cases test with
  | none => trivial
  | some t =>
    obtain ⟨hlo, hhi, hway⟩ := ht t rfl
    exact ⟨⟨hlo, hhi, hway.left⟩, hway⟩

theorem IsprimeAt.resumable {s : State} {test : Option Trials} {rd rs1 : Reg} (hd : decode s.cmd = .ok (.isprime rd rs1))
    (h : IsprimeAt (s.getX rs1) s.trialCount (.running test)) : s.Resumable test := by
  cases test with
  | none => exact h.elim
  | some t => exact .inl ⟨rd, rs1, t, hd, rfl, h⟩

theorem GenprimeAt.resumable {s : State} {test : Option Trials} {rd : Reg} {bits : BitVec 16}
    (hd : decode s.cmd = .ok (.genprime rd bits)) (h1 : 1 ≤ bits.toNat) (hopw : bits.toNat + 1 ≤ s.params.opw)
    (h : GenprimeAt bits.toNat s.trialCount (.running test)) : s.Resumable test := by
  refine .inr ⟨rd, bits, hd, h1, hopw, fun t ht => ?_⟩
  subst ht
  obtain ⟨⟨hlo, hhi, -⟩, hway⟩ := h
  exact ⟨hlo, hhi, hway⟩

/-- The turn of an `ISPRIME` under the invariant, as its draws are made (43_isprime R116). -/
theorem State.Inv.execIsprime_cases {rd rs1 : Reg} {s t : State} (hs : s.Inv) (hd : decode s.cmd = .ok (.isprime rd rs1))
    (h : exec (.isprime rd rs1) s = .next t) :
    (s.phase = .fresh ∧ s.source.ready = false ∧ t = s.raise .rngnrdy) ∨
    ∃ p, StartsAt (isprimeProgress (beginTest (s.getX rs1) s.trialCount)) s.phase p ∧
      IsprimeAt (s.getX rs1) s.trialCount p ∧ pursue (isprimeDraw (s.getX rs1) s.trialCount) p rd s = .next t := by
  refine (Machine.execIsprime_cases h).imp_right fun ⟨p, hstart, hp⟩ => ⟨p, hstart, ?_, hp⟩
  obtain ⟨-, rfl⟩ | ⟨test, hphase, rfl⟩ := hstart
  · exact (beginTest_tests _ _).isprimeAt
  · obtain ⟨-, -, hres⟩ := hs.begun hphase
    exact hres.isprimeAt hd

/-- The turn of a `GENPRIME` under the invariant, as its draws are made (44_genprime R131). -/
theorem State.Inv.execGenprime_cases {rd : Reg} {bits : BitVec 16} {s t : State} (hs : s.Inv)
    (hd : decode s.cmd = .ok (.genprime rd bits)) (h : exec (.genprime rd bits) s = .next t) :
    (s.phase = .fresh ∧ ∃ f, t = s.raise f) ∨
    (1 ≤ bits.toNat ∧ bits.toNat + 1 ≤ s.params.opw ∧ ∃ p, StartsAt (.running none) s.phase p ∧
      GenprimeAt bits.toNat s.trialCount p ∧ pursue (genprimeDraw bits.toNat s.trialCount) p rd s = .next t) := by
  refine (Machine.execGenprime_cases h).imp_right fun ⟨p, hstart, hrange, hp⟩ => ?_
  obtain ⟨hphase, rfl⟩ | ⟨test, hphase, rfl⟩ := hstart
  · obtain ⟨h1, hopw⟩ := hrange hphase
    exact ⟨h1, hopw, _, .inl ⟨hphase, rfl⟩, trivial, hp⟩
  · obtain ⟨-, -, hres⟩ := hs.begun hphase
    obtain ⟨h1, hopw, hat⟩ := hres.genprimeAt hd
    exact ⟨h1, hopw, _, .inr ⟨test, hphase, rfl⟩, hat, hp⟩

/-! Each way in which the engine ends its turn. -/

theorem State.Inv.raise {s : State} (hs : s.Inv) (f : FaultCode) : (s.raise f).Inv :=
  ⟨hs.wideInRange, ⟨fun ⟨hb, _⟩ => Bool.false_ne_true hb, f.code_le, fun hb => absurd hb Bool.false_ne_true⟩, trivial⟩

theorem State.WideInRange.complete {s : State} (hs : s.WideInRange) {rd : Reg} {v : Nat} (hv : v < 2 ^ s.params.opw) :
    (s.complete rd v).WideInRange := by
  intro j
  rw [State.getX_complete]
  split
  · exact hv
  · exact hs j

theorem State.WideInRange.completeFlag_inv {s : State} (hs : s.WideInRange) {rd : Reg} {v : Nat} (hv : v < 2 ^ s.params.opw)
    (b : Bool) : (s.completeFlag rd v b).Inv :=
  ⟨hs.complete hv, ⟨fun ⟨hb, _⟩ => Bool.false_ne_true hb, Nat.zero_le 4, fun _ => rfl⟩, trivial⟩

theorem State.WideInRange.complete_inv {s : State} (hs : s.WideInRange) {rd : Reg} {v : Nat} (hv : v < 2 ^ s.params.opw)
    (src : Source) : ({ s with source := src }.complete rd v).Inv :=
  State.WideInRange.completeFlag_inv (s := { s with source := src }) hs hv s.noinv

theorem State.Inv.pause {s : State} (hs : s.Inv) (hb : s.busy = true) {src : Source} (hr : src.ready = true)
    {test : Option Trials} (hres : s.Resumable test) : ({ s with source := src, phase := .begun test } : State).Inv :=
  ⟨hs.wideInRange, hs.statusConsistent, hb, hr, hres⟩

theorem gcdResult_lt {a b n : Nat} (ha : a < n) (hb : b < n) : gcdResult a b < n := by
  rw [gcdResult_eq_gcd]
  obtain rfl | hpos := Nat.eq_zero_or_pos b
  · rwa [Nat.gcd_zero_right]
  · exact (Nat.gcd_le_right a hpos).trans_lt hb

/-- A turn of the latched command keeps the invariant: its result is in range, or its temporaries are the command's. -/
theorem exec_inv {i : Instr} {s t : State} (hs : s.Inv) (hb : s.busy = true) (hd : decode s.cmd = .ok i)
    (h : exec i s = .next t) : t.Inv := by
  have hwide := hs.wideInRange
  cases i with
  | gcd rd rs1 rs2 =>
    cases h
    exact hwide.complete_inv (gcdResult_lt (hwide rs1) (hwide rs2)) s.source
  | modinv rd rs1 rs2 =>
    by_cases hm : s.getX rs2 = 0
    · cases (execModinv_of_zero rd rs1 rs2 s hm).symm.trans h
      exact hs.raise .divzero
    · cases (execModinv_of_ne_zero rd rs1 rs2 s hm).symm.trans h
      exact hwide.completeFlag_inv ((modinvResult_lt _ (Nat.one_le_iff_ne_zero.2 hm)).trans (hwide rs2)) _
  | powmod rd rs1 rs2 rs3 =>
    by_cases hm : s.getX rs3 = 0
    · cases (execPowmod_of_zero rd rs1 rs2 rs3 s hm).symm.trans h
      exact hs.raise .divzero
    · cases (execPowmod_of_ne_zero rd rs1 rs2 rs3 s hm).symm.trans h
      exact hwide.complete_inv ((Nat.mod_lt _ (Nat.pos_of_ne_zero hm)).trans (hwide rs3)) s.source
  | isprime rd rs1 =>
    obtain ⟨-, -, rfl⟩ | ⟨p, -, hat, hp⟩ := hs.execIsprime_cases hd h
    · exact hs.raise .rngnrdy
    · obtain ⟨hr, src, hsrc, ⟨v, hv, -, rfl⟩ | ⟨test, htest, -, rfl⟩⟩ :=
        pursue_next _ isprimeDraw_isprimeAt (isprimeDraw_drawnTo _ _) hat hp
      · have hopw : 1 < 2 ^ s.params.opw := Nat.one_lt_two_pow (by simp [Params.opw, Params.limbs])
        exact hwide.complete_inv (hv.trans_lt hopw) src
      · exact hs.pause hb (hsrc.ready.trans hr) (htest.resumable hd)
  | genprime rd bits =>
    obtain ⟨-, f, rfl⟩ | ⟨h1, hopw, p, -, hat, hp⟩ := hs.execGenprime_cases hd h
    · exact hs.raise f
    · obtain ⟨hr, src, hsrc, ⟨c, ⟨-, hc, -⟩, -, rfl⟩ | ⟨test, htest, -, rfl⟩⟩ :=
        pursue_next _ (genprimeDraw_genprimeAt h1) (genprimeDraw_drawnTo _ _) hat hp
      · exact hwide.complete_inv (hc.trans_le (Nat.pow_le_pow_right Nat.two_pos hopw)) src
      · exact hs.pause hb (hsrc.ready.trans hr) (htest.resumable hd h1 hopw)

theorem engineTurn_inv {s t : State} (hs : s.Inv) (h : engineTurn s = .next t) : t.Inv := by
  obtain ⟨-, rfl⟩ | ⟨-, w, -, rfl⟩ | ⟨hb, i, hd, hx⟩ := engineTurn_cases h
  · exact hs
  · exact hs.raise .illegal
  · exact exec_inv hs hb hd hx

/-! The host's actions and the turns of the source. -/

/-- A limb below NL keeps the register in range (20_memory R54). -/
theorem withLimb_lt {v j L : Nat} (hv : v < 2 ^ (32 * L)) (hj : j < L) (w : Word) : withLimb v j w < 2 ^ (32 * L) := by
  refine Nat.lt_pow_two_of_testBit _ fun b hb => ?_
  rw [testBit_withLimb, if_neg (by omega)]
  exact Nat.testBit_lt_two_pow (hv.trans_le (Nat.pow_le_pow_right Nat.two_pos hb))

theorem writeAt_inv {s : State} (hs : s.Inv) (v : Word) (l : Location) : (s.writeAt v l).Inv := by
  obtain ⟨-, h⟩ | ⟨-, -, h⟩ | ⟨-, hb, h⟩ | ⟨-, hb, h⟩ | ⟨i, j, -, hj, hb, h⟩ | ⟨-, -, h⟩ := writeAt_cases s v l <;> rw [h]
  · exact hs
  · exact hs
  · exact ⟨hs.wideInRange, ⟨fun ⟨_, hdone⟩ => Bool.false_ne_true hdone, Nat.zero_le 4, fun _ => rfl⟩, trivial⟩
  · exact ⟨hs.wideInRange, hs.statusConsistent, .of_fresh (hs.phase_of_idle hb)⟩
  · refine ⟨fun r => ?_, hs.statusConsistent, .of_fresh (hs.phase_of_idle hb)⟩
    rw [State.getX_setX]
    split
    · exact withLimb_lt (hs.wideInRange i) hj v
    · exact hs.wideInRange r
  · exact hs

theorem hostReset_inv (s : State) : s.hostReset.Inv :=
  ⟨fun i => s.getX_hostReset i ▸ Nat.two_pow_pos _,
    ⟨fun ⟨hb, _⟩ => Bool.false_ne_true hb, Nat.zero_le 4, fun _ => rfl⟩, trivial⟩

theorem hostTurn_inv {a : HostAction} {s t : State} (hs : s.Inv) (h : hostTurn a s = .next t) : t.Inv := by
  obtain ⟨-, rfl⟩ | ⟨index, l, -, -, rfl⟩ | ⟨index, v, l, -, -, rfl⟩ := hostTurn_cases h
  · exact hostReset_inv s
  · exact hs
  · exact writeAt_inv hs v l

theorem State.Resumable.drawingCommand {s : State} {test : Option Trials} (h : s.Resumable test) : s.DrawingCommand := by
  obtain ⟨rd, rs1, t, hd, -⟩ | ⟨rd, bits, hd, -⟩ := h
  · exact .inl ⟨rd, rs1, hd⟩
  · exact .inr ⟨rd, bits, hd⟩

/-- A turn of the source strands the command, or leaves the level up under it (10_state R39). -/
theorem sourceTurn_inv {s : State} (hs : s.Inv) (a : SourceAction) : (sourceTurn a s).Inv := by
  refine ⟨hs.wideInRange, hs.statusConsistent, ?_⟩
  cases hp : s.phase with
  | fresh => exact .of_fresh (by rw [sourceTurn_phase, hp, Phase.afterSource])
  | stranded =>
    simp only [State.EngineConsistent, sourceTurn_phase, hp, Phase.afterSource]
    exact hs.stranded hp
  | begun test =>
    obtain ⟨hb, hr, hres⟩ := hs.begun hp
    cases a with
    | init | teardown =>
      simp only [State.EngineConsistent, sourceTurn_phase, hp, Phase.afterSource]
      exact ⟨hb, hres.drawingCommand⟩
    | draw q =>
      have hready : (s.source.act (.draw q)).ready = true := (Source.act_ready _ _).trans hr
      simp only [State.EngineConsistent, sourceTurn_phase, hp, Phase.afterSource]
      exact ⟨hb, hready, hres⟩

/-- Settles O54: each agent's turn keeps the invariant, and the plan is no part of it. -/
theorem stepKeepsInvariant : Obligations.StepKeepsInvariant := by
  unfold Obligations.StepKeepsInvariant
  intro s t hs h
  obtain ⟨-, rfl⟩ | ⟨a, sched, e, -, ha⟩ | ⟨-, sched, e, k, he⟩ | ⟨a, sched, e, -, rfl⟩ := step_agents h
  · exact hs
  · exact hostTurn_inv (s := { s with schedule := sched, endless := e }) hs ha
  · exact engineTurn_inv (s := { s with schedule := sched, endless := e, pace := k }) hs he
  · exact sourceTurn_inv (s := { s with schedule := sched, endless := e }) hs a

/-- Settles O55: the state after reset is a reset state whatever lies outside the NTU. -/
theorem resetMeetsInvariant : Obligations.ResetMeetsInvariant := by
  unfold Obligations.ResetMeetsInvariant
  exact ⟨hostReset_inv State.reset, fun p src sched e k =>
    hostReset_inv { State.reset with params := p, source := src, schedule := sched, endless := e, pace := k }⟩

end Sys2Proof.Machine
end

section
/-! SUPPORT. The shape of what a `GENPRIME` ends with (spec/44_genprime.md R134). -/

namespace Sys2Proof.Machine

/-- When the engine moves under a running command, it runs (10_state R32). -/
theorem engineRuns_of_engineMoves {s : State} (hm : Spec.EngineMoves s) (hb : s.busy = true) : ∃ u, Spec.EngineRuns s u := by
  obtain hn | ⟨k, s', hn⟩ := hm
  · exact ⟨_, hb, .inr ⟨hn, rfl⟩⟩
  · exact ⟨_, hb, .inl ⟨k, s', hn, rfl⟩⟩

/-- Between `2^b` and `2^(b+1)` a number has `b + 1` bits (00_scope section 6). -/
theorem bitlen_eq {b c : Nat} (hlo : 2 ^ b ≤ c) (hhi : c < 2 ^ (b + 1)) : bitlen c = b + 1 := by
  have hpos : c ≠ 0 := (Nat.two_pow_pos b).trans_le hlo |>.ne'
  rw [bitlen, if_neg hpos, (Nat.log2_eq_iff hpos).2 ⟨hlo, hhi⟩]

/-- A `GENPRIME` that ends without a fault ends with a candidate, in whichever turn (44_genprime R134). -/
theorem execGenprime_completes {rd : Reg} {bits : BitVec 16} {s t : State} (hs : s.Inv) (hb : s.busy = true)
    (hd : decode s.cmd = .ok (.genprime rd bits)) (h : exec (.genprime rd bits) s = .next t) (ht : t.busy = false)
    (herr : t.err = 0) : ∃ src c, IsCandidate bits.toNat c ∧ t = { s with source := src }.complete rd c := by
  obtain ⟨-, f, rfl⟩ | ⟨h1, -, p, -, hat, hp⟩ := hs.execGenprime_cases hd h
  · exact absurd herr f.code_ne_zero
  · obtain ⟨-, src, -, ⟨c, hc, -, rfl⟩ | ⟨test, -, -, rfl⟩⟩ :=
      pursue_next _ (genprimeDraw_genprimeAt h1) (genprimeDraw_drawnTo _ _) hat hp
    · exact ⟨src, c, hc, rfl⟩
    · exact absurd (hb.symm.trans ht) Bool.noConfusion

/-- Settles O42: the result is a candidate, and the completion writes it alone. -/
theorem genprimeShape : Obligations.GenprimeShape := by
  unfold Obligations.GenprimeShape
  intro s t rd bits hs hb hm hd h ht herr
  obtain ⟨u, hruns⟩ := engineRuns_of_engineMoves hm hb
  rw [step_of_decode_ok hruns hd] at h
  obtain ⟨sched, e, k, rfl⟩ := engineRuns_state hruns
  obtain ⟨src, c, ⟨hlo, hhi, hodd⟩, rfl⟩ :=
    execGenprime_completes (s := { s with schedule := sched, endless := e, pace := k }) hs hb hd h ht herr
  rw [State.getX_complete, if_pos rfl]
  refine ⟨hlo, hhi, bitlen_eq hlo.le hhi, hodd, fun i hi => ?_, rfl, rfl⟩
  rw [State.getX_complete, if_neg hi]
  rfl

end Sys2Proof.Machine
end

section
/-! SUPPORT. The proofs of the encoding's other statements (spec/30_encoding.md R73, R75, 95_test_vectors.md V6). -/

namespace Sys2Proof

/-- A row of the table fixes the four opcode bits (30_encoding R72, R73). -/
theorem opcode_of_admits {r : OpcodeRow} (hr : r ∈ opcodeTable) {w : Word} (h : r.admits w = true) :
    (unpack w).opcode = (unpack r.pattern).opcode := by
  have hmask : ∀ r ∈ opcodeTable, (unpack r.mask).opcode = .allOnes 4 := by decide
  have hw : w &&& r.mask = r.pattern := eq_of_beq h
  have hand : (unpack (w &&& r.mask)).opcode = (unpack w).opcode &&& (unpack r.mask).opcode := BitVec.extractLsb'_and
  rw [← hw, hand, hmask r hr, BitVec.and_allOnes]

/-- The rows are disjoint: their opcodes differ (30_encoding R73). -/
theorem countP_admits_le_one (w : Word) : (opcodeTable.countP fun r => r.admits w) ≤ 1 := by
  have hnodup : (opcodeTable.map fun r => (unpack r.pattern).opcode).Nodup := by decide
  calc (opcodeTable.countP fun r => r.admits w)
      ≤ opcodeTable.countP ((· == (unpack w).opcode) ∘ fun r => (unpack r.pattern).opcode) :=
        List.countP_mono_left fun r hr h => beq_iff_eq.2 (opcode_of_admits hr h).symm
    _ = (opcodeTable.map fun r => (unpack r.pattern).opcode).count (unpack w).opcode := by
        rw [List.count_eq_countP, List.countP_map]
    _ ≤ 1 := List.nodup_iff_count_le_one.1 hnodup _

/-- No row of the table admits the word exactly when the word is of no row (30_encoding R73). -/
theorem admits_iff_not_noRow (w : Word) : (∃ r ∈ opcodeTable, r.admits w = true) ↔ ¬ Spec.NoRow w := by
  simp only [opcodeTable, OpcodeRow.admits, List.exists_mem_cons_iff, beq_iff_eq, Spec.NoRow, List.not_mem_nil, false_and,
    exists_false, or_false]
  tauto

/-- A word that is of some row decodes (30_encoding R73, R75). -/
theorem not_noRow_iff_decode (w : Word) : ¬ Spec.NoRow w ↔ ∃ i, decode w = .ok i := by
  cases hd : decode w with
  | error e => simp [noRow_of_decode_error hd]
  | ok i => simp [not_noRow_of_decode hd]

/-- The immediate is bits 15:0 (30_encoding R71, R74). -/
theorem immediate_eq_field (w : Word) : w.extractLsb' 0 16 = BitVec.ofNat 16 (Spec.field w 0 16) := by
  rw [← extractLsb'_toNat_eq_field, BitVec.ofNat_toNat, BitVec.setWidth_eq]

theorem decode_of_genprime_match {w : Word} (h : w &&& 0xF1FF0000#32 = 0x50000000#32) :
    decode w = .ok (.genprime (Spec.regAt w 25) (BitVec.ofNat 16 (Spec.field w 0 16))) :=
  immediate_eq_field w ▸ decode_of_genprime_row h

end Sys2Proof

namespace Sys2Proof.Machine

/-- Settles O2: each row's words decode to its command, the opcodes of the rows differ, and a word outside them does not
decode. -/
theorem matchMaskDecidesCommand : Obligations.MatchMaskDecidesCommand := by
  unfold Obligations.MatchMaskDecidesCommand
  intro w
  exact ⟨decode_of_gcd_row, decode_of_modinv_row, decode_of_powmod_row, decode_of_isprime_row, decode_of_genprime_match,
    decode_error_of_noRow, countP_admits_le_one w, (admits_iff_not_noRow w).trans (not_noRow_iff_decode w)⟩

/-- Settles O4: each word is decoded. -/
theorem writtenOutWordsDecode : Obligations.WrittenOutWordsDecode := by
  unfold Obligations.WrittenOutWordsDecode
  decide

/-- Settles O5: a word of no row does not decode, and the engine ends it. -/
theorem illegalWordFaults : Obligations.IllegalWordFaults := by
  unfold Obligations.IllegalWordFaults
  intro s u hruns hrow
  obtain ⟨e, hd⟩ := decode_error_of_noRow hrow
  exact step_of_decode_error hruns hd

end Sys2Proof.Machine
end

section
/-! SUPPORT. The proofs of the statements about the turns that run no command (spec/00_scope.md R6, R10, 10_state.md R32, R36 to
R41). -/

namespace Sys2Proof.Machine

/-- Settles O7: the step under a word that decodes, and the two ways in which the engine comes to move. -/
theorem stepRunsDecodedCommand : Obligations.StepRunsDecodedCommand := by
  unfold Obligations.StepRunsDecodedCommand
  exact ⟨fun s u i => step_of_decode_ok, fun s s' k hn hb => ⟨hb, .inl ⟨k, s', hn, rfl⟩⟩,
    fun s hn hb => ⟨hb, .inr ⟨hn, rfl⟩⟩⟩

/-- An idle engine keeps all state (60_exceptions R173). -/
theorem engineTurn_idle {s : State} (hb : s.busy = false) : engineTurn s = .next s := by
  simp only [engineTurn, hb, Bool.false_eq_true, if_false]

theorem step_of_rest {s : State} (hn : Spec.NothingPlanned s) (hb : s.busy = false) : step s = .next s := by
  simp only [step_of_none (nextTurn_none.2 hn), owedTurn, hb, Bool.false_eq_true, if_false]

/-- With no command begun a turn of the source reaches the source alone (10_state R36). -/
theorem step_of_source_fresh {s s' : State} {a : SourceAction} (hn : Spec.NextTurn s (.source a) s') (hp : s.phase = .fresh) :
    step s = .next { s' with source := s.source.act a } := by
  rw [step_of_specNextTurn hn]
  obtain ⟨sched, e, rfl⟩ := specNextTurn_state hn
  simp only [takeTurn, sourceTurn, hp, Phase.afterSource]

/-- Settles O8: the idle engine, the idle unit with no turn left, and a turn of the source with no command begun. -/
theorem otherTurnsLeaveRegisters : Obligations.OtherTurnsLeaveRegisters := by
  unfold Obligations.OtherTurnsLeaveRegisters
  refine ⟨fun s s' k hn hb => ?_, fun s => step_of_rest, fun s s' a hn hp => ⟨_, step_of_source_fresh hn hp⟩⟩
  have hb' : s'.busy = false := by
    obtain ⟨sched, e, rfl⟩ := specNextTurn_state hn
    exact hb
  rw [step_of_specNextTurn hn, takeTurn]
  exact engineTurn_idle (s := { s' with pace := k }) hb'

/-- Settles O28: a remainder is in range, a lined-up answer in range is the answer, and the rest is the draw itself. -/
theorem drawsAreFreeInRange : Obligations.DrawsAreFreeInRange := by
  unfold Obligations.DrawsAreFreeInRange
  exact ⟨fun src len => draw_bits_lt len src,
    fun src bound hb => src.draw_answer_lt (.below bound) (Nat.zero_lt_of_lt hb),
    fun src len v hv => Source.draw_of_answers _ (.bits len) v src.answers rfl hv,
    fun src bound v hv => Source.draw_of_answers _ (.below bound) v src.answers rfl hv, fun src q => rfl⟩

/-- A draw by other software strands no command (70_reset_and_hazards R195). -/
theorem Phase.afterSource_draw (q : Request) (p : Phase) : p.afterSource (.draw q) = p := by
  cases p <;> rfl

/-- A draw by other software reaches the source alone, a running command included (70_reset_and_hazards R195). -/
theorem step_of_source_draw {s s' : State} {q : Request} (hn : Spec.NextTurn s (.source (.draw q)) s') :
    step s = .next { s' with source := s.source.act (.draw q) } := by
  rw [step_of_specNextTurn hn]
  obtain ⟨sched, e, rfl⟩ := specNextTurn_state hn
  simp only [takeTurn, sourceTurn, Phase.afterSource_draw]

theorem bound_eq_answersBelow (q : Request) : q.bound = Spec.answersBelow q := by cases q <;> rfl

/-- Settles O29: the source's own turn is one draw of a ready source, and the host's reset leaves the source. -/
theorem sharedSourceAdvances : Obligations.SharedSourceAdvances := by
  unfold Obligations.SharedSourceAdvances
  refine ⟨fun s s' q hn hr => ⟨(s.source.draw q).1, fun hpos => ?_, rfl, ?ready⟩, fun s s' q hn hr => ?unready,
    fun s s' hn => ⟨_, step_of_reset hn, ?reset⟩⟩
  · rw [← bound_eq_answersBelow] at hpos ⊢
    exact s.source.draw_answer_lt q hpos
  case ready =>
    rw [step_of_source_draw hn, Source.act, if_pos hr]
    rfl
  case unready =>
    rw [step_of_source_draw hn, Source.act, if_neg (by rw [hr]; exact Bool.false_ne_true)]
    obtain ⟨sched, e, rfl⟩ := specNextTurn_state hn
    rfl
  case reset =>
    obtain ⟨sched, e, rfl⟩ := specNextTurn_state hn
    rfl

/-- Past the lined-up answers an answer is a function of the seed and the requests (10_state R41). -/
theorem Source.draw_answer_eq {src src' : Source} (q : Request) (ha : src.answers = []) (ha' : src'.answers = [])
    (hseed : src.seed = src'.seed) (hlog : src.log.map Draw.request = src'.log.map Draw.request) :
    (src.draw q).1 = (src'.draw q).1 := by
  simp only [Source.draw, ha, ha', hseed, hlog]

/-- The plan is no matter of the source. -/
theorem nextTurn_with_source {s s' : State} {turn : Turn} (src : Source) (h : Spec.NextTurn s turn s') :
    Spec.NextTurn { s with source := src } turn { s' with source := src } := by
  obtain ⟨rest, hs, rfl⟩ | ⟨hs, n, he, ht, rfl⟩ := h
  · exact .inl ⟨rest, hs, rfl⟩
  · exact .inr ⟨hs, n, he, ht, rfl⟩

/-- An initialisation makes one state of two that differ in the past of their sources alone (10_state R41). -/
theorem step_init_with_source {s s' : State} {src : Source} {seed : BitVec 64}
    (hn : Spec.NextTurn s (.source (.init seed)) s') (ha : s.source.answers = src.answers) :
    step { s with source := src } = step s := by
  rw [step_of_specNextTurn hn, step_of_specNextTurn (nextTurn_with_source src hn)]
  obtain ⟨sched, e, rfl⟩ := specNextTurn_state hn
  simp only [takeTurn, sourceTurn, Source.act, ha]

/-- Settles O30: the source after an initialisation, its answers, and one state of both machines from there on. -/
theorem seededDeterminism : Obligations.SeededDeterminism := by
  unfold Obligations.SeededDeterminism
  refine ⟨fun s s' seed hn hp => step_of_source_fresh hn hp, fun src src' q => Source.draw_answer_eq q,
    fun s src seed s' k hn ha => ?_⟩
  have hinit : step s = .next (sourceTurn (.init seed) s') := step_of_specNextTurn hn
  rw [run_succ_of_step k hinit, run_succ_of_step k ((step_init_with_source hn ha).trans hinit)]

end Sys2Proof.Machine
end

section
/-! SUPPORT. The proofs of the window's other statements (spec/20_memory.md R51, R53, R66, 10_state.md R27, 30_encoding.md R77): the
address map, what a read returns, and the directive that loads a register. -/

namespace Sys2Proof.Machine

/-- Limb `j` of `x[i]` stands at its word index (20_memory R51). -/
theorem locate_limbIndex (i : Reg) {j : Nat} (hj : j ≤ 1023) : locate (limbIndex i j) = some (.limb i j) := by
  have hoff : (0x1000 * (i.val + 1) + 4 * j) % 4 = 0 ∧ 0x1000 * (i.val + 1) + 4 * j < 0x9000 := by omega
  have hreg : (Fin.ofNat 8 ((0x1000 * (i.val + 1) + 4 * j) / 0x1000 - 1) : Reg) = i := by
    apply Fin.ext
    rw [Fin.val_ofNat]
    omega
  have hlimb : (0x1000 * (i.val + 1) + 4 * j) % 0x1000 / 4 = j := by omega
  rw [limbIndex, locate_offset hoff.1 hoff.2, locationAt, hreg, hlimb, if_neg (by omega), if_neg (by omega), if_neg (by omega),
    if_neg (by omega), if_neg (by omega)]

/-- Nothing of the NTU stands at or beyond 0x9000 (20_memory R66). -/
theorem locate_outside {index : Nat} (h : 0x9000 ≤ 4 * index) : locate index = none := by
  rw [locate, windowWords, if_neg (by omega), if_neg (by omega), if_neg (by omega), if_neg (by omega), if_neg (by omega),
    if_neg (by omega)]

/-- Settles O15: the fixed words by evaluation, the ranges by arithmetic. -/
theorem addressMap : Obligations.AddressMap := by
  unfold Obligations.AddressMap
  refine ⟨rfl, rfl, rfl, rfl, fun off hlo hhi => ?reserved, fun i j => locate_limbIndex i, fun index => locate_outside⟩
  case reserved =>
    rw [locate, if_neg (by omega), if_neg (by omega), if_neg (by omega), if_neg (by omega), if_pos (by omega)]

/-- Settles O14: no location, no answer. -/
theorem outsideWindowRefused : Obligations.OutsideWindowRefused := by
  unfold Obligations.OutsideWindowRefused
  intro s s' index v h
  constructor <;> intro hn <;> simp only [step_of_specNextTurn hn, takeTurn, hostTurn, locate_outside h]

theorem flagBit_toNat (b : Bool) : (flagBit b).toNat = Spec.bitNat b := by cases b <;> rfl

theorem bitNat_le_one (b : Bool) : Spec.bitNat b ≤ 1 := by cases b <;> decide

/-- The value of the `STATUS` word (10_state R27). -/
theorem statusWord_toNat (s : State) : s.statusWord.toNat = Spec.statusValue s := by
  simp only [State.statusWord, toNat_append_eq_add, flagBit_toNat, BitVec.toNat_ofNat, Spec.statusValue]
  omega

/-- Settles O16: the word as a sum of its fields, and the invariant for `BUSY` and `DONE`. -/
theorem statusWordFields : Obligations.StatusWordFields := by
  unfold Obligations.StatusWordFields
  refine ⟨fun s => ⟨statusWord_toNat s, ?_⟩, fun s hs => ?_⟩
  · have herr := s.err.isLt
    have hbusy := bitNat_le_one s.busy
    have hdone := bitNat_le_one s.done
    have hnoinv := bitNat_le_one s.noinv
    have hwrerr := bitNat_le_one s.wrerr
    rw [statusWord_toNat, Spec.statusValue]
    omega
  · obtain ⟨hbusy, hdone⟩ := statusWord_busy_done s
    obtain ⟨-, ⟨hboth, -, -⟩, -⟩ := hs
    rwa [hbusy, hdone]

/-- The word at an offset is the formula's (20_memory R53). -/
theorem readAt_toNat (s : State) (off : Nat) : (s.readAt (locationAt off)).toNat = Spec.readValue s off := by
  unfold locationAt Spec.readValue
  split_ifs with hcmd hstatus hiter hparam hctl hlimb
  · rfl
  · exact statusWord_toNat s
  · rfl
  · exact Params.word_toNat s
  · rfl
  · rw [State.readAt_limb s _ hlimb, limbOf_toNat]
  · rw [State.readAt_missing s _ (Nat.not_lt.1 hlimb)]
    rfl

/-- Settles O11: the location at the offset, and its word. -/
theorem hostReadReturns : Obligations.HostReadReturns := by
  unfold Obligations.HostReadReturns
  intro s s' off hn ha hw
  refine ⟨s.readAt (locationAt off), readAt_toNat s off, ?_⟩
  rw [step_of_hostRead hn (locate_offset ha hw)]
  obtain ⟨sched, e, rfl⟩ := specNextTurn_state hn
  rfl

/-- A register after the first `k` limb writes of the directive: the lower limbs are the new value's, the upper ones the old
value's (30_encoding R77). -/
def partlyLoaded (old v k : Nat) : Nat := 2 ^ (32 * k) * (old / 2 ^ (32 * k)) + v % 2 ^ (32 * k)

theorem testBit_partlyLoaded (old v k b : Nat) :
    (partlyLoaded old v k).testBit b = if b < 32 * k then v.testBit b else old.testBit b := by
  rw [partlyLoaded, Nat.testBit_two_pow_mul_add _ (Nat.mod_lt _ (Nat.two_pow_pos _))]
  split
  case isTrue hb => rw [Nat.testBit_mod_two_pow, decide_eq_true hb, Bool.true_and]
  case isFalse hb => rw [Nat.testBit_div_two_pow, Nat.sub_add_cancel (Nat.not_lt.1 hb)]

@[simp] theorem partlyLoaded_zero (old v : Nat) : partlyLoaded old v 0 = old := by
  simp [partlyLoaded, Nat.mod_one]

/-- The last limb write leaves nothing of the old value. -/
theorem partlyLoaded_all {old v L : Nat} (hold : old < 2 ^ (32 * L)) (hv : v < 2 ^ (32 * L)) : partlyLoaded old v L = v := by
  rw [partlyLoaded, Nat.div_eq_of_lt hold, Nat.mod_eq_of_lt hv, Nat.mul_zero, Nat.zero_add]

/-- One limb write more. -/
theorem withLimb_partlyLoaded (old v k : Nat) :
    withLimb (partlyLoaded old v k) k (limbOf v k) = partlyLoaded old v (k + 1) := by
  refine Nat.eq_of_testBit_eq fun b => ?_
  rw [testBit_withLimb, testBit_partlyLoaded, testBit_partlyLoaded]
  split
  case isTrue hb => rw [getLsbD_limbOf _ _ (by omega), if_pos (by omega), Nat.add_sub_cancel' hb.1]
  case isFalse hb =>
    by_cases hlow : b < 32 * k
    · rw [if_pos hlow, if_pos (by omega)]
    · rw [if_neg hlow, if_neg (by omega)]

/-- The directive's write of limb `j`. -/
def limbTurn (i : Reg) (v j : Nat) : Turn := .host (.write (limbIndex i j) (limbOf v j))

/-- One write of the directive, planned next on an idle unit. -/
theorem step_limbTurn {s : State} {i : Reg} {v j : Nat} {rest : List Turn} (hb : s.busy = false) (hj : j < s.params.limbs)
    (hs : s.schedule = limbTurn i v j :: rest) :
    step s = .next ({ s with schedule := rest }.setX i (withLimb (s.getX i) j (limbOf v j))) := by
  have hn : Spec.NextTurn s (limbTurn i v j) { s with schedule := rest } := .inl ⟨rest, hs, rfl⟩
  have hlimbs : s.params.limbs ≤ 1024 := by simp only [Params.limbs]; omega
  rw [step_of_specNextTurn hn]
  simp only [limbTurn, takeTurn, hostTurn, locate_limbIndex i (show j ≤ 1023 by omega)]
  exact congrArg Host.Outcome.next (State.writeAt_limb (s := { s with schedule := rest }) _ i hb hj)

/-- The `d` limb writes from limb `k` on, on an idle unit whose register is loaded up to there. -/
theorem run_limbTurns {i : Reg} {old v : Nat} {rest : List Turn} (d : Nat) {k : Nat} {s : State} (hb : s.busy = false)
    (hk : k + d ≤ s.params.limbs) (hx : s.getX i = partlyLoaded old v k)
    (hs : s.schedule = (List.range' k d).map (limbTurn i v) ++ rest) :
    Host.Core.run Sys2Proof.core d s = .next ({ s with schedule := rest }.setX i (partlyLoaded old v (k + d))) := by
  induction d generalizing k s with
  | zero =>
    have hsame : s.x.set i.val (s.getX i) i.isLt = s.x := Vector.set_getElem_self i.isLt
    simp only [List.range'_zero, List.map_nil, List.nil_append] at hs
    simp only [Host.Core.run, Nat.add_zero, State.setX, ← hx, ← hs, hsame]
  | succ d ih =>
    rw [List.range'_succ, List.map_cons, List.cons_append] at hs
    have hfirst := step_limbTurn hb (by omega) hs
    rw [hx, withLimb_partlyLoaded] at hfirst
    have hrest := ih (k := k + 1) (s := State.setX { s with schedule := _ } i _) hb
      (show k + 1 + d ≤ s.params.limbs by omega) (State.getX_setX_same _ _ _) rfl
    rw [run_succ_of_step d hfirst, hrest]
    simp only [State.setX, Vector.set_set, Nat.add_right_comm k 1 d, Nat.add_assoc k d 1]

/-- Settles O20: limb after limb, until none of the old value is left. -/
theorem loadRegisterDirective : Obligations.LoadRegisterDirective := by
  unfold Obligations.LoadRegisterDirective
  intro s i v rest hb hold hv hs
  have hplan : s.schedule = (List.range' 0 (Spec.limbs s)).map (limbTurn i v) ++ rest := by
    rw [hs, loadReg, List.map_map, List.range_eq_range']
    rfl
  have hrun := run_limbTurns (Spec.limbs s) hb (Nat.zero_add _).le (partlyLoaded_zero (s.getX i) v).symm hplan
  rw [Nat.zero_add, partlyLoaded_all hold hv] at hrun
  exact hrun

end Sys2Proof.Machine
end

section
/-! SUPPORT. The test as the spec runs it (spec/43_isprime.md R117, R119, R120, R122): a verdict of the model and the runs of
`IsProbablePrime` that are left after it. -/

namespace Sys2Proof.Machine

/-- For an odd number the trial in closed form is the model's trial on the decomposition (43_isprime R120, R121). -/
theorem trialPasses_iff_spec {n : Nat} (hodd : n % 2 = 1) (h3 : 3 ≤ n) (a : Nat) :
    trialPasses n (decomposition n).1 (decomposition n).2 a = true ↔ Spec.TrialPasses n a := by
  have hlt {s r : Nat} (hn : n - 1 = 2 ^ s * r) (hr : r % 2 = 1) (j : Nat) : j ≤ s - 1 ↔ j < s := by
    have hs : s ≠ 0 := by
      rintro rfl
      rw [Nat.pow_zero, Nat.one_mul] at hn
      omega
    omega
  rw [trialPasses_iff h3]
  constructor
  · intro h
    obtain ⟨hn, hr⟩ := decomposition_spec (n := n) (by omega)
    exact ⟨_, _, hn, hr, by simpa only [hlt hn hr] using h⟩
  · rintro ⟨s, r, hn, hr, h⟩
    rw [decomposition_eq hn hr]
    simpa only [hlt hn hr] using h

/-- The runs of the test that are left after a verdict: none, or the trials of the test under way. -/
def VerdictRun (v : Verdict) (src : Source) (b : Bool) (src' : Source) : Prop :=
  match v with
  | .passed => b = true ∧ src' = src
  | .failed => b = false ∧ src' = src
  | .more t => Spec.TrialRun t.n t.left src b src'

theorem trialRun_zero_iff {n : Nat} {src src' : Source} {b : Bool} :
    Spec.TrialRun n 0 src b src' ↔ b = true ∧ src' = src := by
  constructor
  · rintro ⟨⟩
    exact ⟨rfl, rfl⟩
  · rintro ⟨rfl, rfl⟩
    exact .none src'

theorem trialRun_succ_iff {n T : Nat} {src src' : Source} {b : Bool} :
    Spec.TrialRun n (T + 1) src b src' ↔
      (Spec.TrialPasses n (2 + (src.draw (.below (n - 3))).1) ∧
        Spec.TrialRun n T (src.draw (.below (n - 3))).2 b src') ∨
      (¬ Spec.TrialPasses n (2 + (src.draw (.below (n - 3))).1) ∧ b = false ∧ src' = (src.draw (.below (n - 3))).2) := by
  constructor
  · intro h
    cases h with
    | pass _ _ _ _ hp hr => exact .inl ⟨hp, hr⟩
    | fail _ _ hf => exact .inr ⟨hf, rfl, rfl⟩
  · rintro (⟨hp, hr⟩ | ⟨hf, rfl, rfl⟩)
    · exact .pass T src b src' hp hr
    · exact .fail T src hf

/-- The fast paths, then the trials (43_isprime R117). -/
theorem isProbablePrime_iff {n T : Nat} {src src' : Source} {b : Bool} :
    Spec.IsProbablePrime n T src b src' ↔ VerdictRun (beginTest n T) src b src' := by
  unfold Spec.IsProbablePrime beginTest
  split_ifs with h2 heven h23 hT
  · exact Iff.rfl
  · exact Iff.rfl
  · exact Iff.rfl
  · subst hT
    exact trialRun_zero_iff
  · exact Iff.rfl

/-- Past the fast paths only the trials are left. -/
theorem isProbablePrime_iff_trialRun {n T : Nat} {src src' : Source} {b : Bool} (hodd : n % 2 = 1) (h5 : 5 ≤ n) :
    Spec.IsProbablePrime n T src b src' ↔ Spec.TrialRun n T src b src' := by
  rw [Spec.IsProbablePrime, if_neg (by omega), if_neg (by omega), if_neg (by omega)]

/-- One trial of a test under way, and what it leaves (43_isprime R119, R122). -/
theorem trialRun_iff_runTrial {t : Trials} {T : Nat} (ht : t.UnderWay T) {src src' : Source} {b : Bool} :
    Spec.TrialRun t.n t.left src b src' ↔ VerdictRun (runTrial t src).1 (runTrial t src).2 b src' := by
  obtain ⟨n, left⟩ := t
  obtain ⟨hodd, h5, h1, -⟩ := ht
  obtain ⟨left, rfl⟩ := Nat.exists_eq_add_of_le' h1
  have hspec := trialPasses_iff_spec hodd (by omega) (2 + (src.draw (.below (n - 3))).1)
  rw [trialRun_succ_iff, runTrial_source, ← hspec]
  simp only [runTrial]
  split_ifs with hpass hlast
  · obtain rfl : left = 0 := by omega
    simp [hpass, VerdictRun, trialRun_zero_iff]
  · simp [hpass, VerdictRun]
  · simp [hpass, VerdictRun]

/-- A run that ends with 1 makes `T` draws, one that ends with 0 between 1 and `T` (43_isprime R122). -/
theorem trialRun_log {n T : Nat} {src src' : Source} {b : Bool} (h : Spec.TrialRun n T src b src') :
    src'.log.length ≤ src.log.length + T ∧
      (if b then src'.log.length = src.log.length + T else src.log.length + 1 ≤ src'.log.length) := by
  induction h with
  | none src => simp
  | pass T src b src' _ _ ih =>
    simp only [Source.draw_log, List.length_cons] at ih
    cases b with
    | true => exact ⟨by omega, by simpa [Nat.add_assoc, Nat.add_comm 1] using ih.right⟩
    | false => exact ⟨by omega, by simpa using Nat.le_of_succ_le ih.right⟩
  | fail T src => simp

/-- The trials draw, if there is one. -/
theorem trialRun_log_lt {n T : Nat} {src src' : Source} {b : Bool} (h : Spec.TrialRun n T src b src') (hT : 1 ≤ T) :
    src.log.length < src'.log.length := by
  obtain ⟨-, hb⟩ := trialRun_log h
  cases b with
  | true => simp only [if_true] at hb; omega
  | false => simpa using hb

/-- A test never takes a draw back. -/
theorem isProbablePrime_log {n T : Nat} {src src' : Source} {b : Bool} (h : Spec.IsProbablePrime n T src b src') :
    src.log.length ≤ src'.log.length ∧ src'.log.length ≤ src.log.length + T := by
  unfold Spec.IsProbablePrime at h
  split_ifs at h
  case neg =>
    obtain ⟨hle, -⟩ := trialRun_log h
    obtain rfl | hT := Nat.eq_zero_or_pos T
    · obtain ⟨-, rfl⟩ := trialRun_zero_iff.1 h
      exact ⟨Nat.le_refl _, hle⟩
    · exact ⟨(trialRun_log_lt h hT).le, hle⟩
  all_goals
    obtain ⟨-, rfl⟩ := h
    exact ⟨Nat.le_refl _, Nat.le_add_right _ _⟩

/-- A fast path, or no trial to run, makes no draw (43_isprime R122). -/
theorem isProbablePrime_source {n T : Nat} {src src' : Source} {b : Bool} (h : Spec.IsProbablePrime n T src b src')
    (hfast : n < 5 ∨ n % 2 = 0 ∨ T = 0) : src' = src := by
  unfold Spec.IsProbablePrime at h
  split_ifs at h
  case neg =>
    obtain rfl : T = 0 := by omega
    exact (trialRun_zero_iff.1 h).right
  all_goals exact h.right

/-- Every test has a run, whatever the source answers. -/
theorem exists_trialRun (n T : Nat) (src : Source) : ∃ b src', Spec.TrialRun n T src b src' := by
  induction T generalizing src with
  | zero => exact ⟨_, _, .none src⟩
  | succ T ih =>
    by_cases hp : Spec.TrialPasses n (2 + (src.draw (.below (n - 3))).1)
    · obtain ⟨b, src', h⟩ := ih (src.draw (.below (n - 3))).2
      exact ⟨b, src', .pass T src b src' hp h⟩
    · exact ⟨_, _, .fail T src hp⟩

theorem exists_isProbablePrime (n T : Nat) (src : Source) : ∃ b src', Spec.IsProbablePrime n T src b src' := by
  unfold Spec.IsProbablePrime
  split_ifs
  case neg => exact exists_trialRun n T src
  all_goals exact ⟨_, _, rfl, rfl⟩

end Sys2Proof.Machine
end

section
/-! SUPPORT. The strong test on a prime and on a composite (spec/43_isprime.md R123): every witness passes a prime, and a proper
divisor fails a composite. -/

namespace Sys2Proof.Machine

/-- Below a power that is 1, a chain of squares starts at 1 or meets -1: 1 has no other square roots. -/
theorem pow_eq_one_or_neg_one {R : Type*} [Ring R] [NoZeroDivisors R] (x : R) {s r : Nat} (h : x ^ (2 ^ s * r) = 1) :
    x ^ r = 1 ∨ ∃ j, j < s ∧ x ^ (2 ^ j * r) = -1 := by
  induction s with
  | zero => exact .inl (by simpa using h)
  | succ s ih =>
    have hsquare : x ^ (2 ^ s * r) * x ^ (2 ^ s * r) = 1 := by
      rw [← pow_add, ← Nat.two_mul, ← Nat.mul_assoc, ← Nat.pow_succ', h]
    obtain hone | hneg := mul_self_eq_one_iff.1 hsquare
    · exact (ih hone).imp_right fun ⟨j, hj, hx⟩ => ⟨j, hj.trans (Nat.lt_succ_self s), hx⟩
    · exact .inr ⟨s, Nat.lt_succ_self s, hneg⟩

theorem natCast_pow_eq_one {n a e : Nat} (hn : 1 < n) : (a : ZMod n) ^ e = 1 ↔ a ^ e % n = 1 := by
  rw [← Nat.cast_pow, ← Nat.cast_one, ZMod.natCast_eq_natCast_iff', Nat.mod_eq_of_lt hn]

theorem natCast_pow_eq_neg_one {n a e : Nat} (hn : 1 < n) : (a : ZMod n) ^ e = -1 ↔ a ^ e % n = n - 1 := by
  have hneg : ((n - 1 : Nat) : ZMod n) = -1 := by rw [Nat.cast_sub hn.le, ZMod.natCast_self, Nat.cast_one, zero_sub]
  rw [← hneg, ← Nat.cast_pow, ZMod.natCast_eq_natCast_iff', Nat.mod_eq_of_lt (Nat.sub_lt (by omega) Nat.one_pos)]

/-- A prime passes with every witness (43_isprime R123). -/
theorem trialPasses_of_prime {n a : Nat} (hn : n.Prime) (ha : 0 < a) (han : a < n) : Spec.TrialPasses n a := by
  have : Fact n.Prime := ⟨hn⟩
  have hne : (a : ZMod n) ≠ 0 := fun h => Nat.not_dvd_of_pos_of_lt ha han ((ZMod.natCast_eq_zero_iff a n).1 h)
  obtain ⟨hsplit, hr⟩ := decomposition_spec hn.two_le
  have hfermat : (a : ZMod n) ^ (2 ^ (decomposition n).1 * (decomposition n).2) = 1 :=
    hsplit ▸ ZMod.pow_card_sub_one_eq_one hne
  refine ⟨_, _, hsplit, hr, ?_⟩
  simpa only [natCast_pow_eq_one hn.one_lt, natCast_pow_eq_neg_one hn.one_lt] using pow_eq_one_or_neg_one _ hfermat

/-- A proper divisor is no strong liar: no power of it is 1 or -1 (43_isprime R123). -/
theorem not_trialPasses_of_dvd {n p : Nat} (hn : 1 ≤ n) (hp : p.Prime) (hdvd : p ∣ n) : ¬ Spec.TrialPasses n p := by
  have hpow {e : Nat} (he : e ≠ 0) : p ∣ p ^ e % n := (Nat.dvd_mod_iff hdvd).2 (dvd_pow_self p he)
  rintro ⟨s, r, -, hr, hone | ⟨j, -, hneg⟩⟩
  · exact hp.not_dvd_one (hone ▸ hpow (by omega))
  · have hpred : p ∣ n - 1 := hneg ▸ hpow (Nat.mul_ne_zero (Nat.two_pow_pos j).ne' (by omega))
    exact hp.not_dvd_one ((Nat.dvd_sub_iff_right hn hdvd).1 hpred)

/-- The witness of a draw lies in its range (43_isprime R119). -/
theorem witness_lt {n : Nat} (h5 : 5 ≤ n) (src : Source) : 2 + (src.draw (.below (n - 3))).1 < n := by
  have hlt : (src.draw (.below (n - 3))).1 < n - 3 := src.draw_answer_lt (.below (n - 3)) (show 0 < n - 3 by omega)
  omega

theorem trialRun_of_prime {n T : Nat} {src src' : Source} {b : Bool} (hn : n.Prime) (h5 : 5 ≤ n)
    (h : Spec.TrialRun n T src b src') : b = true := by
  induction h with
  | none => rfl
  | pass _ _ _ _ _ _ ih => exact ih
  | fail T src hf => exact absurd (trialPasses_of_prime hn (by omega) (witness_lt h5 src)) hf

/-- A prime is always reported prime (43_isprime R123). -/
theorem isProbablePrime_of_prime {n T : Nat} {src src' : Source} {b : Bool} (hn : n.Prime)
    (h : Spec.IsProbablePrime n T src b src') : b = true := by
  have h2 := hn.two_le
  have hparity := hn.eq_two_or_odd
  unfold Spec.IsProbablePrime at h
  split_ifs at h
  · omega
  · omega
  · exact h.left
  · exact trialRun_of_prime hn (by omega) h

/-- A composite has a witness in range against it (43_isprime R123). -/
theorem exists_witness_of_composite {n : Nat} (h5 : 5 ≤ n) (hn : ¬ n.Prime) :
    ∃ v, v < n - 3 ∧ ¬ Spec.TrialPasses n (2 + v) := by
  have hp : n.minFac.Prime := Nat.minFac_prime (by omega)
  have h2 := hp.two_le
  have hsquare : n.minFac * n.minFac ≤ n := by simpa only [sq] using Nat.minFac_sq_le_self (by omega) hn
  have hdouble : 2 * n.minFac ≤ n.minFac * n.minFac := Nat.mul_le_mul_right _ h2
  refine ⟨n.minFac - 2, by omega, ?_⟩
  rw [Nat.add_sub_cancel' h2]
  exact not_trialPasses_of_dvd (by omega) hp n.minFac_dvd

end Sys2Proof.Machine
end

section
/-! SUPPORT. The runs of a command that draws (spec/43_isprime.md R116, 44_genprime.md R131): what is left to run of it, kept by each
draw, and how many draws a turn makes. -/

namespace Sys2Proof.Machine

/-- What each draw keeps and reflects, a turn keeps and reflects. -/
theorem drive_iff {next : Option Trials → Source → Progress × Source} (P : Progress → Prop) (R : Progress → Source → Prop)
    (hP : ∀ test src, P (.running test) → P (next test src).1)
    (hR : ∀ test src, P (.running test) → (R (.running test) src ↔ R (next test src).1 (next test src).2))
    (k : Nat) {p : Progress} {src : Source} (hp : P p) :
    R p src ↔ R (drive next k p src).1 (drive next k p src).2 :=
  (drive_keeps next (fun q src' => P q ∧ (R p src ↔ R q src'))
    (fun test src' ⟨hq, hiff⟩ => ⟨hP test src' hq, hiff.trans (hR test src' hq)⟩) k p src ⟨hp, Iff.rfl⟩).right

/-- A turn that does not finish has made all its draws (10_state R32). -/
theorem drive_log {next : Option Trials → Source → Progress × Source} (P : Progress → Prop)
    (hP : ∀ test src, P (.running test) → P (next test src).1)
    (hlog : ∀ test src, P (.running test) → (next test src).2.log.length = src.log.length + 1)
    {k : Nat} {p : Progress} {src src' : Source} {test : Option Trials} (hp : P p)
    (h : drive next k p src = (.running test, src')) : src'.log.length = src.log.length + k := by
  induction k generalizing p src with
  | zero =>
    cases h
    rfl
  | succ k ih =>
    cases p with
    | finished v =>
      rw [drive_finished] at h
      cases h
    | running t =>
      rw [drive_succ] at h
      rw [ih (hP t src hp) h, hlog t src hp, Nat.add_right_comm, Nat.add_assoc]

theorem runTrial_log (t : Trials) (src : Source) : (runTrial t src).2.log.length = src.log.length + 1 := by
  rw [runTrial_source, Source.draw_log, List.length_cons]

theorem isprimeDraw_log {n T m : Nat} (test : Option Trials) (src : Source) (h : IsprimeAt n m (.running test)) :
    (isprimeDraw n T test src).2.log.length = src.log.length + 1 := by
  cases test with
  | none => exact h.elim
  | some t => exact runTrial_log t src

theorem genprimeDraw_log (bits T : Nat) (test : Option Trials) (src : Source) :
    (genprimeDraw bits T test src).2.log.length = src.log.length + 1 := by
  cases test with
  | none => rw [genprimeDraw_source_none, Source.draw_log, List.length_cons]
  | some t => exact runTrial_log t src

/-! An `ISPRIME`, from where it stands. -/

/-- The runs of the test that are left of an `ISPRIME`. -/
def IsprimeRun (p : Progress) (src : Source) (b : Bool) (src' : Source) : Prop :=
  match p with
  | .finished v => v = Spec.bitNat b ∧ src' = src
  | .running none => False
  | .running (some t) => Spec.TrialRun t.n t.left src b src'

theorem isprimeRun_iff_verdictRun (v : Verdict) {src src' : Source} {b : Bool} :
    IsprimeRun (isprimeProgress v) src b src' ↔ VerdictRun v src b src' := by
  cases v with
  | passed => cases b <;> simp [isprimeProgress, IsprimeRun, VerdictRun, Spec.bitNat]
  | failed => cases b <;> simp [isprimeProgress, IsprimeRun, VerdictRun, Spec.bitNat]
  | more t => exact Iff.rfl

/-- A turn of `ISPRIME` keeps the runs that are left of it. -/
theorem drive_isprimeRun {n T : Nat} (k : Nat) {p : Progress} {src src' : Source} {b : Bool} (hp : IsprimeAt n T p) :
    IsprimeRun p src b src' ↔
      IsprimeRun (drive (isprimeDraw n T) k p src).1 (drive (isprimeDraw n T) k p src).2 b src' := by
  refine drive_iff (IsprimeAt n T) (fun q src => IsprimeRun q src b src') isprimeDraw_isprimeAt (fun test src hq => ?_) k hp
  cases test with
  | none => exact hq.elim
  | some t => exact (trialRun_iff_runTrial hq.right).trans (isprimeRun_iff_verdictRun _).symm

theorem IsprimeAt.mono {n m m' : Nat} {p : Progress} (h : IsprimeAt n m p) (hm : m ≤ m') : IsprimeAt n m' p := by
  rcases p with (_ | t) | v
  · exact h
  · obtain ⟨hn, hodd, h5, h1, hleft⟩ := h
    exact ⟨hn, hodd, h5, h1, hleft.trans hm⟩
  · exact h

/-- With no trial left to run, an `ISPRIME` is finished. -/
theorem not_isprimeAt_zero {n : Nat} {test : Option Trials} : ¬ IsprimeAt n 0 (.running test) := by
  cases test with
  | none => exact id
  | some t =>
    rintro ⟨-, -, -, h1, h0⟩
    omega

/-- A draw leaves one trial less (43_isprime R117). -/
theorem isprimeDraw_isprimeAt_pred {n m T : Nat} (test : Option Trials) (src : Source)
    (h : IsprimeAt n (m + 1) (.running test)) : IsprimeAt n m (isprimeDraw n T test src).1 := by
  cases test with
  | none => exact h.elim
  | some t =>
    obtain ⟨rfl, ht⟩ := h
    refine Verdict.Tests.isprimeAt fun t' hmore => ?_
    obtain ⟨hn, hodd, h5, h1, -⟩ := ht.runTrial_tests src t' hmore
    obtain ⟨-, -, -, hleft⟩ := ht
    obtain ⟨rfl, -⟩ := runTrial_more t t' src hmore
    exact ⟨hn, hodd, h5, h1, Nat.sub_le_of_le_add hleft⟩

/-- A turn of `k` draws runs `k` trials, or finishes (43_isprime R116). -/
theorem drive_isprimeAt {n m T : Nat} (k : Nat) {p : Progress} {src : Source} (h : IsprimeAt n (m + k) p) :
    IsprimeAt n m (drive (isprimeDraw n T) k p src).1 := by
  induction k generalizing p src with
  | zero => exact h
  | succ k ih =>
    cases p with
    | finished v =>
      rw [drive_finished]
      exact h
    | running test => exact ih (isprimeDraw_isprimeAt_pred test src h)

/-- A fresh `ISPRIME` on a ready source completes with the verdict of a run of the test; or an odd number from 5 up has more trials
to run than the turn has draws, and it goes on (43_isprime R116, R117). -/
theorem execIsprime_outcome {rd rs1 : Reg} {s : State} (hp : s.phase = .fresh) (hr : s.source.ready = true) :
    (∃ b src, Spec.IsProbablePrime (s.getX rs1) s.trialCount s.source b src ∧
      exec (.isprime rd rs1) s = .next (Spec.completed { s with source := src } rd (Spec.bitNat b))) ∨
    (s.getX rs1 % 2 = 1 ∧ 5 ≤ s.getX rs1 ∧ s.pace < s.trialCount ∧ ∃ src test,
      exec (.isprime rd rs1) s = .next { s with source := src, phase := .begun test }) := by
  rw [execIsprime_fresh rd rs1 s hp hr]
  have hat : IsprimeAt (s.getX rs1) s.trialCount (isprimeProgress (beginTest (s.getX rs1) s.trialCount)) :=
    (beginTest_tests _ _).isprimeAt
  have hkept := drive_keeps _ (fun q _ => IsprimeAt (s.getX rs1) s.trialCount q) isprimeDraw_isprimeAt s.pace _ s.source hat
  have hrun {b : Bool} {src' : Source} := drive_isprimeRun s.pace (src := s.source) (b := b) (src' := src') hat
  obtain ⟨hr', -⟩ | ⟨-, v, src, hd, he⟩ | ⟨-, test, src, hd, he⟩ := pursue_cases (isprimeDraw (s.getX rs1) s.trialCount)
    (isprimeProgress (beginTest (s.getX rs1) s.trialCount)) rd s
  · exact absurd (hr.symm.trans hr') Bool.noConfusion
  · rw [hd] at hkept hrun
    obtain ⟨b, rfl⟩ : ∃ b, v = Spec.bitNat b := by
      obtain rfl | rfl : v = 0 ∨ v = 1 := Nat.le_one_iff_eq_zero_or_eq_one.1 hkept
      · exact ⟨false, rfl⟩
      · exact ⟨true, rfl⟩
    exact .inl ⟨b, src, isProbablePrime_iff.2 ((isprimeRun_iff_verdictRun _).1 (hrun.2 ⟨rfl, rfl⟩)), he⟩
  · rw [hd] at hkept
    have hpace : s.pace < s.trialCount := by
      by_contra hle
      have hdone := drive_isprimeAt (T := s.trialCount) (m := 0) s.pace (src := s.source) (hat.mono (by omega))
      rw [hd] at hdone
      exact not_isprimeAt_zero hdone
    cases test with
    | none => exact hkept.elim
    | some t =>
      obtain ⟨hn, hodd, h5, -⟩ := hkept
      exact .inr ⟨hn ▸ hodd, hn ▸ h5, hpace, src, some t, he⟩

/-- A turn of `T` draws completes a fresh `ISPRIME` (43_isprime R116). -/
theorem execIsprime_verdict {rd rs1 : Reg} {s : State} (hp : s.phase = .fresh) (hr : s.source.ready = true)
    (hpace : s.trialCount ≤ s.pace) :
    ∃ b src, Spec.IsProbablePrime (s.getX rs1) s.trialCount s.source b src ∧
      exec (.isprime rd rs1) s = .next (Spec.completed { s with source := src } rd (Spec.bitNat b)) := by
  obtain h | ⟨-, -, hlt, -⟩ := execIsprime_outcome (rd := rd) (rs1 := rs1) hp hr
  · exact h
  · exact absurd hpace (Nat.not_le.2 hlt)

end Sys2Proof.Machine
end

section
/-! SUPPORT. The proofs of the statements of `ISPRIME` about a whole test (spec/43_isprime.md R116, R117, R122, R123). -/

namespace Sys2Proof

/-- In an `ISPRIME` that decodes the must-be-zero bits are zero (43_isprime R116). -/
theorem low22_zero_of_decode_isprime {w : Word} {i : Instr} (h : decode w = .ok i) (hop : Spec.field w 28 4 = 4) :
    Spec.field w 0 22 = 0 := by
  have hcode : (unpack w).opcode.toNat = 4 := (extractLsb'_toNat_eq_field w 28 4).trans hop
  obtain ⟨ho, -⟩ | ⟨ho, -⟩ | ⟨ho, -⟩ | ⟨-, hrs2, hrs3, himm, -⟩ | ⟨ho, -⟩ := decodeFields_cases h
  case inr.inr.inr.inl =>
    have hfields : w.toNat = (pack (unpack w)).toNat := congrArg BitVec.toNat (pack_unpack w).symm
    rw [pack_toNat, hrs2, hrs3, himm] at hfields
    simp only [BitVec.ofNat_eq_ofNat, BitVec.toNat_ofNat] at hfields
    rw [Spec.field, hfields]
    omega
  all_goals simp [ho] at hcode

end Sys2Proof

namespace Sys2Proof.Machine

/-- Settles O35: an unready source, the run of the test, the word of the row and its must-be-zero bits. -/
theorem isprimeResult : Obligations.IsprimeResult := by
  unfold Obligations.IsprimeResult
  exact ⟨fun rd rs1 s => execIsprime_notReady rd rs1 s, fun rd rs1 s => execIsprime_verdict, fun w => decode_of_isprime_row,
    illegalWhenNotZero_of_decode low22_zero_of_decode_isprime⟩

/-- Settles O36: a turn that completes has run the test, whose runs make so many draws. -/
theorem isprimeDrawCount : Obligations.IsprimeDrawCount := by
  unfold Obligations.IsprimeDrawCount
  intro rd rs1 s t hp hr hb h ht
  obtain ⟨b, src, hrun, he⟩ | ⟨-, -, -, src, test, he⟩ := execIsprime_outcome (rd := rd) (rs1 := rs1) hp hr <;>
    cases he.symm.trans h
  case inr => exact absurd (hb.symm.trans ht) Bool.noConfusion
  case inl =>
    have hvalue : (Spec.completed { s with source := src } rd (Spec.bitNat b)).getX rd = Spec.bitNat b :=
      State.getX_setX_same s rd _
    split
    case isTrue hfast => exact isProbablePrime_source hrun hfast
    case isFalse hslow =>
      obtain ⟨hle, hlog⟩ := trialRun_log ((isProbablePrime_iff_trialRun (by omega) (by omega)).1 hrun)
      rw [hvalue]
      cases b with
      | true => exact ⟨fun _ => hlog, fun hz => absurd hz Nat.one_ne_zero, .inr rfl⟩
      | false => exact ⟨fun hz => absurd hz Nat.zero_ne_one, fun _ => ⟨hlog, hle⟩, .inl rfl⟩

/-- A prime is reported prime, whatever the source answers (43_isprime R123). -/
theorem execIsprime_of_prime {rd rs1 : Reg} {s : State} (hn : (s.getX rs1).Prime) (hp : s.phase = .fresh)
    (hr : s.source.ready = true) (hpace : s.trialCount ≤ s.pace) :
    ∃ src, exec (.isprime rd rs1) s = .next (Spec.completed { s with source := src } rd 1) := by
  obtain ⟨b, src, hrun, he⟩ := execIsprime_verdict (rd := rd) hp hr hpace
  obtain rfl := isProbablePrime_of_prime hn hrun
  exact ⟨src, he⟩

/-- Below 2, or even and not 2, the command reports 0 without a draw (43_isprime R123). -/
theorem execIsprime_rejected {rd rs1 : Reg} {s : State} (hn : s.getX rs1 < 2 ∨ (s.getX rs1 % 2 = 0 ∧ s.getX rs1 ≠ 2))
    (hp : s.phase = .fresh) (hr : s.source.ready = true) :
    exec (.isprime rd rs1) s = .next (Spec.completed s rd 0) := by
  have hbegin : beginTest (s.getX rs1) s.trialCount = .failed := by
    unfold beginTest
    obtain h2 | heven := hn
    · rw [if_pos h2]
    · rw [if_pos heven, ite_self]
  rw [execIsprime_fresh rd rs1 s hp hr, hbegin]
  exact pursue_finished _ _ rd s 0 s.source hr (drive_finished _ _ _ _)

/-- An odd composite is reported 0 for some answer (43_isprime R123). -/
theorem execIsprime_of_composite {rd rs1 : Reg} {s : State} (hodd : s.getX rs1 % 2 = 1) (h5 : 5 ≤ s.getX rs1)
    (hn : ¬ (s.getX rs1).Prime) (hp : s.phase = .fresh) (hr : s.source.ready = true) (hT : 1 ≤ s.trialCount)
    (hpace : s.trialCount ≤ s.pace) :
    ∃ answer src, answer < s.getX rs1 - 3 ∧
      exec (.isprime rd rs1) { s with source := { s.source with answers := answer :: s.source.answers } } =
        .next (Spec.completed { s with source := src } rd 0) := by
  obtain ⟨v, hv, hfail⟩ := exists_witness_of_composite h5 hn
  obtain ⟨b, src, hrun, he⟩ := execIsprime_verdict (rd := rd) (rs1 := rs1)
    (s := { s with source := { s.source with answers := v :: s.source.answers } }) hp hr hpace
  obtain ⟨T, hT'⟩ := Nat.exists_eq_add_of_le' hT
  have hrun' : Spec.TrialRun (s.getX rs1) (T + 1) { s.source with answers := v :: s.source.answers } b src :=
    hT' ▸ (isProbablePrime_iff_trialRun hodd h5).1 hrun
  have hanswer := Source.draw_of_answers { s.source with answers := v :: s.source.answers } (.below (s.getX rs1 - 3)) v
    s.source.answers rfl hv
  rw [trialRun_succ_iff, hanswer] at hrun'
  obtain ⟨hpass, -⟩ | ⟨-, rfl, -⟩ := hrun'
  · exact absurd hpass hfail
  · exact ⟨v, src, hv, he⟩

/-- The strong liars of a small odd number, by evaluation of the model's trial (43_isprime R123). -/
theorem strongLiars_of_trials {n : Nat} (liar : Nat → Bool) (hodd : n % 2 = 1) (h3 : 3 ≤ n) {s r : Nat}
    (hd : decomposition n = (s, r)) (hall : ∀ a < n - 1, 2 ≤ a → trialPasses n s r a = liar a) {a : Nat} (h2 : 2 ≤ a)
    (ha : a ≤ n - 2) : Spec.TrialPasses n a ↔ liar a = true := by
  rw [← trialPasses_iff_spec hodd h3, hd, hall a (by omega) h2]

/-- Settles O37: primes, the fast rejections, composites with a divisor lined up, the liars of four numbers, and the vacuous
test. -/
theorem primesAlwaysPass : Obligations.PrimesAlwaysPass := by
  unfold Obligations.PrimesAlwaysPass
  refine ⟨fun rd rs1 s => execIsprime_of_prime, fun rd rs1 s => execIsprime_rejected,
    fun rd rs1 s hodd h5 hn => execIsprime_of_composite hodd h5 hn, fun a h2 ha => ?liars25, fun a h2 ha => ?liars561,
    fun a h2 ha => ?liars9, fun a h2 ha => ?liars15,
    fun rd rs1 s hodd h5 hT hp hr => execIsprime_vacuous rd rs1 s hp hr hT hodd h5⟩
  case liars25 =>
    rw [strongLiars_of_trials (fun a => a == 7 || a == 18) rfl (by decide) (decomposition_eq (s := 3) (r := 3) rfl rfl)
      (by decide) h2 ha]
    simp
  case liars561 =>
    rw [strongLiars_of_trials (fun a => [50, 101, 103, 256, 305, 458, 460, 511].contains a) rfl (by decide)
      (decomposition_eq (s := 4) (r := 35) rfl rfl) (by decide +kernel) h2 ha]
    simp
  case liars9 =>
    rw [strongLiars_of_trials (fun _ => false) rfl (by decide) (decomposition_eq (s := 3) (r := 1) rfl rfl) (by decide) h2 ha]
    simp
  case liars15 =>
    rw [strongLiars_of_trials (fun _ => false) rfl (by decide) (decomposition_eq (s := 1) (r := 7) rfl rfl) (by decide) h2 ha]
    simp

/-! Termination (43_isprime R116, 00_scope R10). -/

/-- A turn of `ISPRIME` on a ready source, from where it starts. -/
theorem execIsprime_of_startsAt {rd rs1 : Reg} {s : State} {p : Progress} (hr : s.source.ready = true)
    (h : StartsAt (isprimeProgress (beginTest (s.getX rs1) s.trialCount)) s.phase p) :
    exec (.isprime rd rs1) s = pursue (isprimeDraw (s.getX rs1) s.trialCount) p rd s := by
  obtain ⟨hp, rfl⟩ | ⟨test, hp, rfl⟩ := h
  · exact execIsprime_fresh rd rs1 s hp hr
  · exact execIsprime_begun rd rs1 s test hp

/-- The completion step without a fault has been taken (10_state R33). -/
def Completed (t : State) : Prop := t.busy = false ∧ t.done = true ∧ t.err = 0

/-- A turn of `ISPRIME` with a draw to make completes it, or leaves it begun with a trial less to run. -/
theorem pursue_isprime {n m T : Nat} {p : Progress} {rd : Reg} {s : State} (hr : s.source.ready = true) (hk : 1 ≤ s.pace)
    (hat : IsprimeAt n (m + 1) p) :
    (∃ t, pursue (isprimeDraw n T) p rd s = .next t ∧ Completed t) ∨
    ∃ src test, pursue (isprimeDraw n T) p rd s = .next { s with source := src, phase := .begun test } ∧
      IsprimeAt n m (.running test) := by
  obtain ⟨hr', -⟩ | ⟨-, v, src, -, he⟩ | ⟨-, test, src, hd, he⟩ := pursue_cases (isprimeDraw n T) p rd s
  · exact absurd (hr.symm.trans hr') Bool.noConfusion
  · exact .inl ⟨_, he, rfl, rfl, rfl⟩
  · have hat' := drive_isprimeAt (T := T) (m := m + 1 - s.pace) s.pace (src := s.source) (hat.mono (by omega))
    rw [hd] at hat'
    exact .inr ⟨src, test, he, hat'.mono (by omega)⟩

/-- An `ISPRIME` on a ready source is running, and no turn is left. -/
structure OwedIsprime (rd rs1 : Reg) (s : State) : Prop where
  plan    : Spec.NothingPlanned s
  busy    : s.busy = true
  decodes : decode s.cmd = .ok (.isprime rd rs1)
  ready   : s.source.ready = true

theorem step_owedIsprime {rd rs1 : Reg} {s : State} {m : Nat} {p : Progress} (hs : OwedIsprime rd rs1 s)
    (hstart : StartsAt (isprimeProgress (beginTest (s.getX rs1) s.trialCount)) s.phase p) (hat : IsprimeAt (s.getX rs1) (m + 1) p) :
    (∃ t, step s = .next t ∧ Completed t) ∨
    ∃ t test, step s = .next t ∧ OwedIsprime rd rs1 t ∧ t.phase = .begun test ∧ IsprimeAt (t.getX rs1) m (.running test) := by
  have hexec : exec (.isprime rd rs1) { s with pace := max s.pace 1 } =
      pursue (isprimeDraw (s.getX rs1) s.trialCount) p rd { s with pace := max s.pace 1 } :=
    execIsprime_of_startsAt (s := { s with pace := max s.pace 1 }) hs.ready hstart
  rw [step_of_decode_ok ⟨hs.busy, .inr ⟨hs.plan, rfl⟩⟩ hs.decodes]
  obtain ⟨t, he, ht⟩ | ⟨src, test, he, hat'⟩ := pursue_isprime (T := s.trialCount) (rd := rd)
    (s := { s with pace := max s.pace 1 }) hs.ready (Nat.le_max_right _ _) hat
  · exact .inl ⟨t, hexec.trans he, ht⟩
  · have hready : src.ready = true := (exec_drawnTo (hexec.trans he)).ready.trans hs.ready
    exact .inr ⟨_, test, hexec.trans he, ⟨hs.plan, hs.busy, hs.decodes, hready⟩, rfl, hat'⟩

/-- With at most `m` trials to run, the command completes within `m` steps. -/
theorem run_owedIsprime_begun {rd rs1 : Reg} {m : Nat} {s : State} {test : Option Trials} (hs : OwedIsprime rd rs1 s)
    (hp : s.phase = .begun test) (hat : IsprimeAt (s.getX rs1) m (.running test)) :
    ∃ k t, k ≤ m ∧ Host.Core.run Sys2Proof.core k s = .next t ∧ Completed t := by
  induction m generalizing s test with
  | zero => exact absurd hat not_isprimeAt_zero
  | succ m ih =>
    obtain ⟨t, hstep, ht⟩ | ⟨u, test', hstep, hu, hp', hat'⟩ := step_owedIsprime hs (.inr ⟨test, hp, rfl⟩) hat
    · exact ⟨1, t, by omega, run_succ_of_step 0 hstep, ht⟩
    · obtain ⟨k, t, hk, hrun, ht⟩ := ih hu hp' hat'
      exact ⟨k + 1, t, by omega, (run_succ_of_step k hstep).trans hrun, ht⟩

/-- A fresh command completes in its first step, or goes on with its `T` trials at most. -/
theorem run_owedIsprime_fresh {rd rs1 : Reg} {s : State} (hs : OwedIsprime rd rs1 s) (hp : s.phase = .fresh) :
    ∃ k t, k ≤ s.trialCount + 1 ∧ Host.Core.run Sys2Proof.core k s = .next t ∧ Completed t := by
  have hat := (beginTest_tests (s.getX rs1) s.trialCount).isprimeAt.mono (Nat.le_succ _)
  obtain ⟨t, hstep, ht⟩ | ⟨u, test, hstep, hu, hp', hat'⟩ := step_owedIsprime hs (.inl ⟨hp, rfl⟩) hat
  · exact ⟨1, t, by omega, run_succ_of_step 0 hstep, ht⟩
  · obtain ⟨k, t, hk, hrun, ht⟩ := run_owedIsprime_begun hu hp' hat'
    exact ⟨k + 1, t, by omega, (run_succ_of_step k hstep).trans hrun, ht⟩

/-- Settles O38: each owed turn makes a draw, and a draw leaves a trial less. -/
theorem isprimeAlwaysEnds : Obligations.IsprimeAlwaysEnds := by
  unfold Obligations.IsprimeAlwaysEnds
  intro s rd rs1 hs hn hb hns hd hready
  cases hp : s.phase with
  | fresh => exact run_owedIsprime_fresh ⟨hn, hb, hd, hready hp⟩ hp
  | begun test =>
    obtain ⟨-, hr, hres⟩ := hs.begun hp
    obtain ⟨k, t, hk, hrun⟩ := run_owedIsprime_begun ⟨hn, hb, hd, hr⟩ hp (hres.isprimeAt hd)
    exact ⟨k, t, by omega, hrun⟩
  | stranded => exact absurd hp hns

end Sys2Proof.Machine
end

section
/-! SUPPORT. The sampling loop of `GENPRIME` as the spec runs it (spec/44_genprime.md R131), from wherever the command stands. -/

namespace Sys2Proof.Machine

/-- The loop by its first candidate: redrawn, rejected, or accepted (44_genprime R131). -/
theorem genRun_iff {bits T c : Nat} {src src' : Source} :
    Spec.GenRun bits T src c src' ↔
      ((src.draw (.bits bits)).1 % 2 ≠ 1 ∧ Spec.GenRun bits T (src.draw (.bits bits)).2 c src') ∨
      ((src.draw (.bits bits)).1 % 2 = 1 ∧
        ((Spec.IsProbablePrime ((src.draw (.bits bits)).1 + 2 ^ bits) T (src.draw (.bits bits)).2 true src' ∧
            c = (src.draw (.bits bits)).1 + 2 ^ bits) ∨
          ∃ mid, Spec.IsProbablePrime ((src.draw (.bits bits)).1 + 2 ^ bits) T (src.draw (.bits bits)).2 false mid ∧
            Spec.GenRun bits T mid c src')) := by
  constructor
  · intro h
    cases h with
    | even _ _ _ heven hr => exact .inl ⟨heven, hr⟩
    | rejected _ mid _ _ hodd ht hr => exact .inr ⟨hodd, .inr ⟨mid, ht, hr⟩⟩
    | accepted _ _ hodd ht => exact .inr ⟨hodd, .inl ⟨ht, rfl⟩⟩
  · rintro (⟨heven, hr⟩ | ⟨hodd, ⟨ht, rfl⟩ | ⟨mid, ht, hr⟩⟩)
    · exact .even src c src' heven hr
    · exact .accepted src src' hodd ht
    · exact .rejected src mid c src' hodd ht hr

/-- The runs of the loop that are left of a `GENPRIME`. -/
def GenprimeRun (bits T : Nat) (p : Progress) (src : Source) (c : Nat) (src' : Source) : Prop :=
  match p with
  | .finished v => c = v ∧ src' = src
  | .running none => Spec.GenRun bits T src c src'
  | .running (some t) =>
    (Spec.TrialRun t.n t.left src true src' ∧ c = t.n) ∨
      ∃ mid, Spec.TrialRun t.n t.left src false mid ∧ Spec.GenRun bits T mid c src'

/-- After a verdict on the candidate `n`: it is accepted, or the loop goes on (44_genprime R131). -/
theorem genprimeRun_iff_verdictRun {bits T n c : Nat} {v : Verdict} (hv : v.Tests n T) {src src' : Source} :
    GenprimeRun bits T (genprimeProgress n v) src c src' ↔
      (VerdictRun v src true src' ∧ c = n) ∨ ∃ mid, VerdictRun v src false mid ∧ Spec.GenRun bits T mid c src' := by
  cases v with
  | passed => simp [genprimeProgress, GenprimeRun, VerdictRun, and_comm]
  | failed => simp [genprimeProgress, GenprimeRun, VerdictRun]
  | more t =>
    obtain ⟨rfl, -⟩ := hv t rfl
    exact Iff.rfl

/-- A draw of `GENPRIME` keeps the runs that are left of it. -/
theorem genprimeDraw_genprimeRun {bits T c : Nat} {src' : Source} (test : Option Trials) (src : Source)
    (h : GenprimeAt bits T (.running test)) :
    GenprimeRun bits T (.running test) src c src' ↔
      GenprimeRun bits T (genprimeDraw bits T test src).1 (genprimeDraw bits T test src).2 c src' := by
  cases test with
  | none =>
    refine Iff.trans genRun_iff ?_
    by_cases hodd : (src.draw (.bits bits)).1 % 2 = 1
    · rw [genprimeDraw_odd hodd, genprimeRun_iff_verdictRun (beginTest_tests _ T)]
      simp only [hodd, ne_eq, not_true_eq_false, false_and, false_or, true_and, isProbablePrime_iff]
    · rw [genprimeDraw_even hodd]
      simp [hodd, GenprimeRun]
  | some t =>
    obtain ⟨-, ht⟩ := h
    simp only [genprimeDraw, genprimeRun_iff_verdictRun (ht.runTrial_tests src), ← trialRun_iff_runTrial ht]
    exact Iff.rfl

/-- A turn of `GENPRIME` keeps the runs that are left of it. -/
theorem drive_genprimeRun {bits T c : Nat} (hbits : 1 ≤ bits) (k : Nat) {p : Progress} {src src' : Source}
    (hp : GenprimeAt bits T p) :
    GenprimeRun bits T p src c src' ↔
      GenprimeRun bits T (drive (genprimeDraw bits T) k p src).1 (drive (genprimeDraw bits T) k p src).2 c src' :=
  drive_iff (GenprimeAt bits T) (fun q src => GenprimeRun bits T q src c src') (genprimeDraw_genprimeAt hbits)
    genprimeDraw_genprimeRun k hp

/-- The loop draws at least once. -/
theorem genRun_log_lt {bits T c : Nat} {src src' : Source} (h : Spec.GenRun bits T src c src') :
    src.log.length < src'.log.length := by
  have hdraw (src : Source) : src.log.length < (src.draw (.bits bits)).2.log.length := by simp
  induction h with
  | even src c src' _ _ ih => exact (hdraw src).trans ih
  | rejected src mid c src' _ ht _ ih => exact (hdraw src).trans_le ((isProbablePrime_log ht).left.trans ih.le)
  | accepted src src' _ ht => exact (hdraw src).trans_le (isProbablePrime_log ht).left

/-- A `GENPRIME` that goes on draws again before it ends. -/
theorem genprimeRun_log_lt {bits T c : Nat} {test : Option Trials} {src src' : Source}
    (hat : GenprimeAt bits T (.running test)) (h : GenprimeRun bits T (.running test) src c src') :
    src.log.length < src'.log.length := by
  cases test with
  | none => exact genRun_log_lt h
  | some t =>
    obtain ⟨-, -, -, h1, -⟩ := hat
    obtain ⟨hrun, -⟩ | ⟨mid, hrun, hgen⟩ := h
    · exact trialRun_log_lt hrun h1
    · exact (trialRun_log_lt hrun h1).trans (genRun_log_lt hgen)

/-- A fresh `GENPRIME` in range on a ready source completes with a run of the loop, or makes all draws of its turn and goes on: then
every run of the loop has further draws (44_genprime R131). -/
theorem execGenprime_outcome {rd : Reg} {bits : BitVec 16} {s : State} (hp : s.phase = .fresh) (h1 : 1 ≤ bits.toNat)
    (hopw : bits.toNat + 1 ≤ Spec.opw s) (hr : s.source.ready = true) :
    (∃ c src, (∀ c' src', Spec.GenRun bits.toNat s.trialCount s.source c' src' ↔ c' = c ∧ src' = src) ∧
      exec (.genprime rd bits) s = .next (Spec.completed { s with source := src } rd c)) ∨
    (∃ src test, src.log.length = s.source.log.length + s.pace ∧
      (∀ c' src', Spec.GenRun bits.toNat s.trialCount s.source c' src' → src.log.length < src'.log.length) ∧
      exec (.genprime rd bits) s = .next { s with source := src, phase := .begun test }) := by
  have hrange : ¬(bits.toNat = 0 ∨ s.params.opw < bits.toNat + 1) := by
    have hopw' : bits.toNat + 1 ≤ s.params.opw := hopw
    omega
  rw [execGenprime_fresh rd bits s hp hrange hr]
  have hat : GenprimeAt bits.toNat s.trialCount (.running none) := trivial
  have hkept := drive_keeps _ (fun q _ => GenprimeAt bits.toNat s.trialCount q) (genprimeDraw_genprimeAt h1) s.pace _
    s.source hat
  have hrun (c' : Nat) (src' : Source) := drive_genprimeRun h1 s.pace (c := c') (src := s.source) (src' := src') hat
  obtain ⟨hr', -⟩ | ⟨-, c, src, hd, he⟩ | ⟨-, test, src, hd, he⟩ :=
    pursue_cases (genprimeDraw bits.toNat s.trialCount) (.running none) rd s
  · exact absurd (hr.symm.trans hr') Bool.noConfusion
  · rw [hd] at hrun
    exact .inl ⟨c, src, hrun, he⟩
  · have hlog := drive_log (fun _ => True) (fun _ _ _ => trivial) (fun test src _ => genprimeDraw_log _ _ test src) trivial hd
    rw [hd] at hrun hkept
    exact .inr ⟨src, test, hlog, fun c' src' h => genprimeRun_log_lt hkept ((hrun c' src').1 h), he⟩

/-- The turn allows the draws of the run: the command completes with it (44_genprime R131). -/
theorem execGenprime_of_genRun {rd : Reg} {bits : BitVec 16} {s : State} {c : Nat} {src : Source} (hp : s.phase = .fresh)
    (h1 : 1 ≤ bits.toNat) (hopw : bits.toNat + 1 ≤ Spec.opw s) (hr : s.source.ready = true)
    (hgen : Spec.GenRun bits.toNat s.trialCount s.source c src) (hpace : src.log.length ≤ s.source.log.length + s.pace) :
    exec (.genprime rd bits) s = .next (Spec.completed { s with source := src } rd c) := by
  obtain ⟨c', src', hrun, he⟩ | ⟨src', test, hlog, hlt, -⟩ := execGenprime_outcome (rd := rd) hp h1 hopw hr
  · obtain ⟨rfl, rfl⟩ := (hrun c src).1 hgen
    exact he
  · exact absurd (hlt c src hgen) (by omega)

end Sys2Proof.Machine
end

section
/-! SUPPORT. The proofs of the statements of `GENPRIME` about its loop (spec/44_genprime.md R131, R133). -/

namespace Sys2Proof

/-- In a `GENPRIME` that decodes the must-be-zero bits are zero (44_genprime R131). -/
theorem high9_zero_of_decode_genprime {w : Word} {i : Instr} (h : decode w = .ok i) (hop : Spec.field w 28 4 = 5) :
    Spec.field w 16 9 = 0 := by
  have hcode : (unpack w).opcode.toNat = 5 := (extractLsb'_toNat_eq_field w 28 4).trans hop
  obtain ⟨ho, -⟩ | ⟨ho, -⟩ | ⟨ho, -⟩ | ⟨ho, -⟩ | ⟨-, hrs1, hrs2, hrs3, -⟩ := decodeFields_cases h
  case inr.inr.inr.inr =>
    have hfields : w.toNat = (pack (unpack w)).toNat := congrArg BitVec.toNat (pack_unpack w).symm
    rw [pack_toNat, hrs1, hrs2, hrs3] at hfields
    simp only [BitVec.ofNat_eq_ofNat, BitVec.toNat_ofNat] at hfields
    rw [Spec.field, hfields]
    omega
  all_goals simp [ho] at hcode

end Sys2Proof

namespace Sys2Proof.Machine

/-- Settles O39: the two faults, the two outcomes of a turn, the word of the row and its must-be-zero bits. -/
theorem genprimeResult : Obligations.GenprimeResult := by
  unfold Obligations.GenprimeResult
  refine ⟨fun rd bits s => execGenprime_range rd bits s, fun rd bits s hp h1 hopw hr => ?notReady,
    fun rd bits s c src => execGenprime_of_genRun, fun rd bits s hp h1 hopw hr => ?outcome, fun w => decode_of_genprime_match,
    illegalWhenNotZero_of_decode high9_zero_of_decode_genprime⟩
  case notReady =>
    have hopw' : bits.toNat + 1 ≤ s.params.opw := hopw
    exact execGenprime_notReady rd bits s hp (by omega) hr
  case outcome =>
    obtain ⟨c, src, hrun, he⟩ | ⟨src, test, hlog, -, he⟩ := execGenprime_outcome (rd := rd) hp h1 hopw hr
    · exact .inl ⟨c, src, (hrun c src).2 ⟨rfl, rfl⟩, he⟩
    · exact .inr ⟨src, test, hlog, he⟩

/-- Settles O40: a prime candidate passes its test, which makes at most `T` draws after the candidate's own. -/
theorem genprimeAcceptsPrime : Obligations.GenprimeAcceptsPrime := by
  unfold Obligations.GenprimeAcceptsPrime
  intro rd bits s v rest hp h1 hopw hr ha hv hodd hprime hpace
  have hdraw : (s.source.draw (.bits bits.toNat)).1 = v := Source.draw_of_answers _ _ v rest ha hv
  obtain ⟨b, src, htest⟩ := exists_isProbablePrime (v + 2 ^ bits.toNat) s.trialCount (s.source.draw (.bits bits.toNat)).2
  obtain rfl := isProbablePrime_of_prime hprime htest
  obtain ⟨-, hlog⟩ := isProbablePrime_log htest
  rw [Source.draw_log, List.length_cons] at hlog
  have hgen : Spec.GenRun bits.toNat s.trialCount s.source (v + 2 ^ bits.toNat) src :=
    genRun_iff.2 (.inr ⟨hdraw ▸ hodd, .inl ⟨hdraw ▸ htest, by rw [hdraw]⟩⟩)
  exact ⟨src, execGenprime_of_genRun hp h1 hopw hr hgen (by omega)⟩

/-- An even lined-up answer is an even draw: the range is a power of two above 1. -/
theorem draw_even {bits a : Nat} {src : Source} {rest : List Nat} (h1 : 1 ≤ bits) (ha : src.answers = a :: rest)
    (heven : a % 2 = 0) : (src.draw (.bits bits)).1 % 2 ≠ 1 := by
  have hdraw : (src.draw (.bits bits)).1 = a % 2 ^ bits := by
    simp only [Source.draw, ha, Request.bound]
  rw [hdraw, Nat.mod_mod_of_dvd a (dvd_pow_self 2 (Nat.one_le_iff_ne_zero.1 h1)), heven]
  decide

/-- As many even answers as draws leave the command at a fresh draw (44_genprime R133). -/
theorem drive_even {bits T k : Nat} {src : Source} (h1 : 1 ≤ bits) (hlen : src.answers.length = k)
    (heven : ∀ a ∈ src.answers, a % 2 = 0) :
    ∃ src', drive (genprimeDraw bits T) k (.running none) src = (.running none, src') := by
  induction k generalizing src with
  | zero => exact ⟨src, rfl⟩
  | succ k ih =>
    obtain ⟨a, rest, ha⟩ := List.exists_cons_of_length_eq_add_one hlen
    simp only [ha, List.forall_mem_cons] at heven
    obtain ⟨ha0, hrest⟩ := heven
    have hnext : (src.draw (.bits bits)).2.answers = rest := by rw [Source.draw_answers, ha, List.tail_cons]
    rw [drive_succ, genprimeDraw_even (draw_even h1 ha ha0)]
    refine ih ?_ (hnext ▸ hrest)
    rw [hnext]
    simpa [ha] using hlen

/-- Settles O41: the turn ends at a fresh draw, with all its draws made. -/
theorem genprimeCanRunForever : Obligations.GenprimeCanRunForever := by
  unfold Obligations.GenprimeCanRunForever
  intro rd bits s hp h1 hopw hr hlen heven
  have hopw' : bits.toNat + 1 ≤ s.params.opw := hopw
  obtain ⟨src, hd⟩ := drive_even (T := s.trialCount) h1 hlen heven
  refine ⟨src, drive_log (fun _ => True) (fun _ _ _ => trivial) (fun test src _ => genprimeDraw_log _ _ test src) trivial hd,
    ?_⟩
  rw [execGenprime_fresh rd bits s hp (by omega) hr]
  exact pursue_running _ _ rd s none src hr hd

end Sys2Proof.Machine
end

section
/-! SUPPORT. A turn of any command (spec/10_state.md R22, R32): what it leaves unchanged, and that cutting it in two changes nothing. -/

namespace Sys2Proof.Machine

/-- What a turn of a command leaves as it is, but for the source (10_state R22, R25, R28, R33). -/
theorem exec_frame {i : Instr} {s t : State} (h : exec i s = .next t) :
    (∀ r, r ≠ Spec.writes i → t.getX r = s.getX r) ∧ t.iter = s.iter ∧ t.wrerr = s.wrerr ∧ t.cmd = s.cmd ∧
      ((∀ rd rs1 rs2, i ≠ .modinv rd rs1 rs2) → t.noinv = s.noinv) ∧ t.schedule = s.schedule ∧ t.endless = s.endless ∧
      t.pace = s.pace ∧ t.reads = s.reads := by
  obtain ⟨src, v, -, rfl⟩ | ⟨rd, rs1, rs2, rfl, -, rfl⟩ | ⟨f, -, rfl⟩ | ⟨src, test, -, -, rfl⟩ := exec_cases h
  · refine ⟨fun r hne => ?_, rfl, rfl, rfl, fun _ => rfl, rfl, rfl, rfl, rfl⟩
    rw [destination_eq_writes, State.getX_complete, if_neg hne]
    rfl
  · refine ⟨fun r hne => ?_, rfl, rfl, rfl, fun hno => absurd rfl (hno rd rs1 rs2), rfl, rfl, rfl, rfl⟩
    rw [State.getX_completeFlag]
    exact if_neg hne
  · exact ⟨fun _ _ => rfl, rfl, rfl, rfl, fun _ => rfl, rfl, rfl, rfl, rfl⟩
  · exact ⟨fun _ _ => rfl, rfl, rfl, rfl, fun _ => rfl, rfl, rfl, rfl, rfl⟩

/-- Settles O45: the frame, the source by its draws, and each word of the window by what it shows. -/
theorem commandFrame : Obligations.CommandFrame := by
  unfold Obligations.CommandFrame
  intro i s t h
  obtain ⟨hx, hiter, hwrerr, hcmd, hnoinv, hsched, hendless, hpace, hreads⟩ := exec_frame h
  have hparams := exec_params h
  have hdrawn := exec_drawnTo h
  refine ⟨hx, hiter, hwrerr, hcmd, hparams, hnoinv, fun hi hg => ?source, hdrawn.ready, hdrawn.seed, hsched, hendless, hpace,
    hreads, fun l hstatus hlimb => ?window⟩
  case source =>
    refine (exec_source h).resolve_right fun ⟨hdraws, _⟩ => ?_
    cases i with
    | gcd | modinv | powmod => cases hdraws
    | isprime rd rs1 => exact hi rd rs1 rfl
    | genprime rd bits => exact hg rd bits rfl
  case window =>
    cases l with
    | cmd | reserved => rfl
    | status => exact absurd rfl hstatus
    | iter => exact hiter
    | param => simp only [State.readAt, hparams]
    | limb r j =>
      have hr : r ≠ Spec.writes i := fun hr => hlimb j (hr ▸ rfl)
      simp only [State.readAt, hparams, hx r hr]

/-- A command that stays running is one that draws (10_state R30). -/
theorem draws_of_exec_busy {i : Instr} {s t : State} (h : exec i s = .next t) (hb : t.busy = true) : draws i = true := by
  obtain ⟨src, v, -, rfl⟩ | ⟨rd, rs1, rs2, -, -, rfl⟩ | ⟨f, -, rfl⟩ | ⟨src, test, hi, -, rfl⟩ := exec_cases h
  · cases hb
  · cases hb
  · cases hb
  · exact hi

/-- A turn of `k` draws that pauses, and then one of `m`, is one of `k + m` (10_state R42). -/
theorem pursue_compose {next : Option Trials → Source → Progress × Source}
    (hdraws : ∀ test (src : Source), src.DrawnTo (next test src).2) {p : Progress} {rd : Reg} {s t u : State} {k m : Nat}
    (ht : pursue next p rd { s with pace := k } = .next t) (hb : t.busy = true)
    (hu : pursue next p rd { s with pace := k + m } = .next u) :
    ∃ test src, t = { s with pace := k, source := src, phase := .begun test } ∧
      pursue next (.running test) rd { t with pace := m } = .next { u with pace := m } := by
  obtain ⟨hr, src, hsrc, ⟨v, -, -, rfl⟩ | ⟨test, -, hd, rfl⟩⟩ :=
    pursue_next (fun _ => True) (fun _ _ _ => trivial) hdraws trivial ht
  · cases hb
  · have hready : src.ready = true := hsrc.ready.trans hr
    have hrest : drive next (k + m) p s.source = drive next m (.running test) src := by
      rw [drive_add]
      exact congrArg (fun q : Progress × Source => drive next m q.1 q.2) hd
    refine ⟨test, src, rfl, ?_⟩
    obtain ⟨hr', -⟩ | ⟨-, v, src', hd', he⟩ | ⟨-, test', src', hd', he⟩ :=
      pursue_cases next p rd { s with pace := k + m }
    · exact absurd (hr.symm.trans hr') Bool.noConfusion
    · cases he.symm.trans hu
      exact pursue_finished next (.running test) rd _ v src' hready (hrest.symm.trans hd')
    · cases he.symm.trans hu
      exact pursue_running next (.running test) rd _ test' src' hready (hrest.symm.trans hd')

/-- A turn that answers a next state has a ready source (10_state R39). -/
theorem ready_of_pursue {next : Option Trials → Source → Progress × Source} {p : Progress} {rd : Reg} {s t : State}
    (h : pursue next p rd s = .next t) : s.source.ready = true := by
  obtain ⟨-, he⟩ | ⟨hr, -⟩ | ⟨hr, -⟩ := pursue_cases next p rd s
  · cases he.symm.trans h
  · exact hr
  · exact hr

/-- A turn of `GENPRIME` on a ready source, from where it starts. -/
theorem execGenprime_of_startsAt {rd : Reg} {bits : BitVec 16} {s : State} {p : Progress} (hr : s.source.ready = true)
    (hrange : s.phase = .fresh → 1 ≤ bits.toNat ∧ bits.toNat + 1 ≤ s.params.opw) (h : StartsAt (.running none) s.phase p) :
    exec (.genprime rd bits) s = pursue (genprimeDraw bits.toNat s.trialCount) p rd s := by
  obtain ⟨hp, rfl⟩ | ⟨test, hp, rfl⟩ := h
  · obtain ⟨h1, hopw⟩ := hrange hp
    exact execGenprime_fresh rd bits s hp (by omega) hr
  · exact execGenprime_begun rd bits s test hp

/-- Settles O43: both turns start from the same progress, and the second one from where the first one pauses. -/
theorem turnsCompose : Obligations.TurnsCompose := by
  unfold Obligations.TurnsCompose
  intro i s k m t u ht hb hu
  cases i with
  | gcd | modinv | powmod => cases draws_of_exec_busy ht hb
  | isprime rd rs1 =>
    obtain ⟨-, -, rfl⟩ | ⟨p, hstart, hp⟩ := execIsprime_cases ht
    · cases hb
    · have hr := ready_of_pursue hp
      rw [execIsprime_of_startsAt (s := { s with pace := k + m }) hr hstart] at hu
      obtain ⟨test, src, rfl, hm⟩ := pursue_compose (isprimeDraw_drawnTo _ _) hp hb hu
      exact (execIsprime_begun rd rs1 _ test rfl).trans hm
  | genprime rd bits =>
    obtain ⟨-, f, rfl⟩ | ⟨p, hstart, hrange, hp⟩ := execGenprime_cases ht
    · cases hb
    · have hr := ready_of_pursue hp
      rw [execGenprime_of_startsAt (s := { s with pace := k + m }) hr hrange hstart] at hu
      obtain ⟨test, src, rfl, hm⟩ := pursue_compose (genprimeDraw_drawnTo _ _) hp hb hu
      exact (execGenprime_begun rd bits _ test rfl).trans hm

end Sys2Proof.Machine
end

section
/-! SUPPORT. The proofs of the statements about a command left alone and a command that has lost its source (spec/00_scope.md R10,
93_implementation_defined.md U6). -/

namespace Sys2Proof.Machine

/-- A stranded command has no step (93_implementation_defined U6). -/
theorem exec_stranded {i : Instr} {s : State} (hi : draws i = true) (hp : s.phase = .stranded) :
    exec i s = .fault .drawUnanswered := by
  cases i with
  | gcd | modinv | powmod => cases hi
  | isprime rd rs1 => simp only [exec, execIsprime, hp]
  | genprime rd bits => simp only [exec, execGenprime, hp]

theorem State.DrawingCommand.decodes {s : State} (h : s.DrawingCommand) : ∃ i, decode s.cmd = .ok i ∧ draws i = true := by
  obtain ⟨rd, rs1, hd⟩ | ⟨rd, bits, hd⟩ := h
  · exact ⟨_, hd, rfl⟩
  · exact ⟨_, hd, rfl⟩

theorem engineTurn_stranded {s : State} (hs : s.Inv) (hp : s.phase = .stranded) : engineTurn s = .fault .drawUnanswered := by
  obtain ⟨hb, hdrawing⟩ := hs.stranded hp
  obtain ⟨i, hd, hi⟩ := hdrawing.decodes
  simp only [engineTurn, hb, hd, if_true]
  exact exec_stranded hi hp

theorem writeAt_busy {s : State} (v : Word) (l : Location) (hb : s.busy = true) :
    (s.writeAt v l).phase = s.phase ∧ (s.writeAt v l).busy = true := by
  by_cases hl : l = .status
  · rw [hl, State.writeAt_status]
    exact ⟨rfl, hb⟩
  · rw [State.writeAt_dropped v hb hl]
    exact ⟨rfl, hb⟩

/-- Of the host's actions only a reset ends a running command or reaches its temporaries (10_state R30, R34). -/
theorem hostTurn_busy {a : HostAction} {s t : State} (h : hostTurn a s = .next t) (hb : s.busy = true) (ha : a ≠ .reset) :
    t.phase = s.phase ∧ t.busy = true := by
  obtain ⟨hr, -⟩ | ⟨index, l, -, -, rfl⟩ | ⟨index, v, l, -, -, rfl⟩ := hostTurn_cases h
  · exact absurd hr ha
  · exact ⟨rfl, hb⟩
  · exact writeAt_busy v l hb

/-- A stranded command stays so, and running, over every step but a reset (93_implementation_defined U6). -/
theorem step_stranded {s t : State} (hs : s.Inv) (hp : s.phase = .stranded) (h : step s = .next t)
    (hno : ¬ Spec.ResetTaken s) : t.phase = .stranded ∧ t.busy = true := by
  obtain ⟨hb, -⟩ := hs.stranded hp
  obtain ⟨-, rfl⟩ | ⟨a, sched, e, hn, ha⟩ | ⟨-, sched, e, k, he⟩ | ⟨a, sched, e, -, rfl⟩ := step_agents h
  · exact ⟨hp, hb⟩
  · obtain ⟨hphase, hbusy⟩ := hostTurn_busy ha hb fun hr => hno ⟨_, hr ▸ hn⟩
    exact ⟨hphase.trans hp, hbusy⟩
  · cases (engineTurn_stranded (s := { s with schedule := sched, endless := e, pace := k }) hs hp).symm.trans he
  · exact ⟨by simp only [sourceTurn_phase, hp, Phase.afterSource], hb⟩

/-- A turn of the source that breaks the source of a begun command strands it (93_implementation_defined U6). -/
theorem step_of_source_breaks {s s' : State} {a : SourceAction} {test : Option Trials}
    (hn : Spec.NextTurn s (.source a) s') (hp : s.phase = .begun test) (ha : a.breaks = true) :
    step s = .next { s' with phase := .stranded, source := s.source.act a } := by
  rw [step_of_specNextTurn hn]
  obtain ⟨sched, e, rfl⟩ := specNextTurn_state hn
  simp only [takeTurn, sourceTurn, hp, Phase.afterSource, ha, if_true]

/-- Settles O44: the turn that strands the command, and what each agent can do then. -/
theorem lostSourceStrandsCommand : Obligations.LostSourceStrandsCommand := by
  unfold Obligations.LostSourceStrandsCommand
  refine ⟨fun s s' test hn hp => step_of_source_breaks hn hp rfl, fun s s' seed test hn hp => step_of_source_breaks hn hp rfl,
    fun s t hs hp h hno => ?stays, fun s hs hp hm => ?stop, fun rd rs1 s => exec_stranded rfl,
    fun rd bits s => exec_stranded rfl, fun s hp ⟨s', hn⟩ => ⟨_, step_of_reset hn, rfl, rfl⟩⟩
  case stays =>
    obtain ⟨hb, -⟩ := hs.stranded hp
    obtain ⟨hp', hb'⟩ := step_stranded hs hp h hno
    obtain ⟨hx, hiter, hdone, hnoinv, herr, hcmd, -⟩ := nothingChangesWhileBusy s t h hb hb'
    exact ⟨hp', hb', hx, hiter, hdone, hnoinv, herr, hcmd⟩
  case stop =>
    obtain ⟨hb, -⟩ := hs.stranded hp
    obtain ⟨u, hruns⟩ := engineRuns_of_engineMoves hm hb
    rw [step_of_engineRuns hruns]
    obtain ⟨sched, e, k, rfl⟩ := engineRuns_state hruns
    exact engineTurn_stranded (s := { s with schedule := sched, endless := e, pace := k }) hs hp

/-- The turn has ended the command, or has made a draw (00_scope R10). -/
def Advances (s : State) (o : Host.Outcome State Fault Refusal) : Prop :=
  ∃ t, o = .next t ∧ (t.busy = false ∨ s.source.log.length < t.source.log.length)

/-- A turn with a draw to make ends the command, or makes one. -/
theorem pursue_advances {next : Option Trials → Source → Progress × Source} (P : Progress → Prop)
    (hP : ∀ test src, P (.running test) → P (next test src).1)
    (hlog : ∀ test src, P (.running test) → (next test src).2.log.length = src.log.length + 1)
    {p : Progress} {rd : Reg} {s : State} (hp : P p) (hr : s.source.ready = true) (hk : 1 ≤ s.pace) :
    Advances s (pursue next p rd s) := by
  obtain ⟨hr', -⟩ | ⟨-, v, src, -, he⟩ | ⟨-, test, src, hd, he⟩ := pursue_cases next p rd s
  · exact absurd (hr.symm.trans hr') Bool.noConfusion
  · exact ⟨_, he, .inl rfl⟩
  · have hdrawn := drive_log P hP hlog hp hd
    exact ⟨_, he, .inr (show s.source.log.length < src.log.length by omega)⟩

/-- A turn of a running command that is not stranded ends it, or makes a draw (00_scope R10). -/
theorem exec_advances {i : Instr} {s : State} (hs : s.Inv) (hp : s.phase ≠ .stranded) (hd : decode s.cmd = .ok i)
    (hk : 1 ≤ s.pace) : Advances s (exec i s) := by
  cases i with
  | gcd rd rs1 rs2 => exact ⟨_, execGcd_eq rd rs1 rs2 s, .inl rfl⟩
  | modinv rd rs1 rs2 =>
    by_cases hm : s.getX rs2 = 0
    · exact ⟨_, execModinv_of_zero rd rs1 rs2 s hm, .inl rfl⟩
    · exact ⟨_, execModinv_of_ne_zero rd rs1 rs2 s hm, .inl rfl⟩
  | powmod rd rs1 rs2 rs3 =>
    by_cases hm : s.getX rs3 = 0
    · exact ⟨_, execPowmod_of_zero rd rs1 rs2 rs3 s hm, .inl rfl⟩
    · exact ⟨_, execPowmod_of_ne_zero rd rs1 rs2 rs3 s hm, .inl rfl⟩
  | isprime rd rs1 =>
    have advance (p : Progress) (hr : s.source.ready = true) (hat : IsprimeAt (s.getX rs1) s.trialCount p) :=
      pursue_advances (rd := rd) _ isprimeDraw_isprimeAt (fun test src => isprimeDraw_log test src) hat hr hk
    cases hphase : s.phase with
    | fresh =>
      cases hr : s.source.ready with
      | false => exact ⟨_, execIsprime_notReady rd rs1 s hphase hr, .inl rfl⟩
      | true => exact execIsprime_fresh rd rs1 s hphase hr ▸ advance _ hr (beginTest_tests _ _).isprimeAt
    | begun test =>
      obtain ⟨-, hr, hres⟩ := hs.begun hphase
      exact execIsprime_begun rd rs1 s test hphase ▸ advance _ hr (hres.isprimeAt hd)
    | stranded => exact absurd hphase hp
  | genprime rd bits =>
    have advance (p : Progress) (hr : s.source.ready = true) :=
      pursue_advances (rd := rd) (p := p) (fun _ => True) (fun _ _ _ => trivial)
        (fun test src _ => genprimeDraw_log bits.toNat s.trialCount test src) trivial hr hk
    cases hphase : s.phase with
    | fresh =>
      by_cases hb : bits.toNat = 0 ∨ s.params.opw < bits.toNat + 1
      · exact ⟨_, execGenprime_range rd bits s hphase hb, .inl rfl⟩
      · cases hr : s.source.ready with
        | false => exact ⟨_, execGenprime_notReady rd bits s hphase hb hr, .inl rfl⟩
        | true => exact execGenprime_fresh rd bits s hphase hb hr ▸ advance _ hr
    | begun test =>
      obtain ⟨-, hr, -⟩ := hs.begun hphase
      exact execGenprime_begun rd bits s test hphase ▸ advance _ hr
    | stranded => exact absurd hphase hp

/-! The turns past the list, in a run that goes on for ever (00_scope R10, log 18). -/

theorem engineTurn_endless {s t : State} (h : engineTurn s = .next t) : t.endless = s.endless := by
  obtain ⟨-, rfl⟩ | ⟨-, w, -, rfl⟩ | ⟨-, i, -, hx⟩ := engineTurn_cases h
  · rfl
  · rfl
  · obtain ⟨-, -, -, -, -, -, hendless, -⟩ := exec_frame hx
    exact hendless

/-- No turn reaches the plan. -/
theorem takeTurn_endless {turn : Turn} {s t : State} (h : takeTurn turn s = .next t) : t.endless = s.endless := by
  cases turn with
  | host a =>
    obtain ⟨-, rfl⟩ | ⟨index, l, -, -, rfl⟩ | ⟨index, v, l, -, -, rfl⟩ := hostTurn_cases h
    · rfl
    · rfl
    · exact (writeAt_outside s v l).right
  | engine k => exact (engineTurn_endless h :)
  | source a =>
    cases h
    rfl

/-- Settles O9: the owed turn advances the command, a run that has ended rests, and an endless run has its next turn. -/
theorem busyIsNeverFinal : Obligations.BusyIsNeverFinal := by
  unfold Obligations.BusyIsNeverFinal
  refine ⟨fun s hs hn hb hp => ?owed, fun s ⟨hsched, hendless, hb⟩ => step_of_rest ⟨hsched, hendless⟩ hb,
    fun s t n hn h => ?endless⟩
  case owed =>
    have hruns : Spec.EngineRuns s { s with pace := max s.pace 1 } := ⟨hb, .inr ⟨hn, rfl⟩⟩
    cases hd : decode s.cmd with
    | error e => exact ⟨_, step_of_decode_error hruns hd, .inl rfl⟩
    | ok i =>
      rw [step_of_decode_ok hruns hd]
      exact exec_advances (s := { s with pace := max s.pace 1 }) hs hp hd (Nat.le_max_right _ _)
  case endless =>
    cases hnext : s.nextTurn with
    | none =>
      obtain ⟨-, hnone⟩ := nextTurn_none.1 hnext
      cases hn.symm.trans hnone
    | some taken =>
      obtain ⟨turn, s'⟩ := taken
      have hkept := takeTurn_endless ((step_of_turn hnext).symm.trans h)
      refine ⟨⟨turn, s', nextTurn_some.1 hnext⟩, ?_⟩
      obtain ⟨rest, -, rfl⟩ | ⟨-, n', hn', -, rfl⟩ := nextTurn_some.1 hnext
      · exact .inl (hkept.trans hn)
      · cases hn.symm.trans hn'
        exact .inr hkept

end Sys2Proof.Machine
end
